-- ==== Sys2Proof/Word.lean ====
section
/-! DEFINITION. The widths the spec fixes (00_scope.md rule R6): 32-bit words, 16-bit
fields, 8-bit output characters. -/

namespace Sys2Proof

/-- A memory cell, an instruction word, the accumulator (R6, R11, R12). -/
abbrev Word := BitVec 32

/-- One of the two fields of an instruction word, the opcode or the operand (R6, R51). -/
abbrev Half := BitVec 16

/-- An output character (R6, R153). -/
abbrev Byte := BitVec 8

end Sys2Proof
end

