-- ==== Sys2Proof/Config.lean ====
section
/-! DEFINITION. What an implementation fixes (00_scope.md rules R4, R5): the memory length
and the opcode map, with the 25 mnemonics the map is about. The default values stand in
Sys2Proof/Decode.lean. The spec leaves no value free, so there is no opaque constant here. -/

namespace Sys2Proof

/-- The 25 mnemonics (R1), in the order of spec/opcode_table.json; `inp` is IN. -/
inductive Mnemonic where
  | halt | load | loadi | store | add | addi
  | sub | subi | mul | muli | div | divi
  | mod | modi | cmp | cmpi | jmpi | jei
  | jnei | jli | jlei | jgi | jgei | inp
  | out
  deriving DecidableEq, Repr

/-- Every mnemonic once, in the order of R55. -/
def Mnemonic.all : List Mnemonic :=
  [.halt, .load, .loadi, .store, .add, .addi, .sub,
   .subi, .mul, .muli, .div, .divi, .mod, .modi,
   .cmp, .cmpi, .jmpi, .jei, .jnei, .jli, .jlei,
   .jgi, .jgei, .inp, .out]

/-- How an instruction uses its operand field (R58). -/
inductive Mode where
  /-- Arity 0: the operand bits are ignored. -/
  | none
  /-- The operand, zero-extended, is the value. -/
  | immediateValue
  /-- The operand is the absolute target of a jump. -/
  | immediateTarget
  /-- The low half of the addressed cell is the value. -/
  | indirectValue
  /-- The addressed cell is written. -/
  | indirectAddress
  deriving DecidableEq, Repr

/-- OPCODE_MAP (R5), held by its inverse: the opcode of each mnemonic. So R56 (a) and (c)
hold by the type; that no two mnemonics share an opcode (R56 b) is `OpcodeMap.wf`. -/
structure OpcodeMap where
  halt : Half
  load : Half
  loadi : Half
  store : Half
  add : Half
  addi : Half
  sub : Half
  subi : Half
  mul : Half
  muli : Half
  div : Half
  divi : Half
  mod : Half
  modi : Half
  cmp : Half
  cmpi : Half
  jmpi : Half
  jei : Half
  jnei : Half
  jli : Half
  jlei : Half
  jgi : Half
  jgei : Half
  inp : Half
  out : Half
  deriving DecidableEq, Repr

/-- The opcode the map gives a mnemonic (R56 b: exactly one). -/
def OpcodeMap.opcode (m : OpcodeMap) : Mnemonic → Half
  | .halt => m.halt
  | .load => m.load
  | .loadi => m.loadi
  | .store => m.store
  | .add => m.add
  | .addi => m.addi
  | .sub => m.sub
  | .subi => m.subi
  | .mul => m.mul
  | .muli => m.muli
  | .div => m.div
  | .divi => m.divi
  | .mod => m.mod
  | .modi => m.modi
  | .cmp => m.cmp
  | .cmpi => m.cmpi
  | .jmpi => m.jmpi
  | .jei => m.jei
  | .jnei => m.jnei
  | .jli => m.jli
  | .jlei => m.jlei
  | .jgi => m.jgi
  | .jgei => m.jgei
  | .inp => m.inp
  | .out => m.out

/-- The two parameters of the model (R4, R5), fixed for a machine (R56 d). -/
structure Config where
  /-- MEM_LEN, the number of memory cells (R4). -/
  memLen : Nat
  /-- OPCODE_MAP (R5). -/
  opcodes : OpcodeMap
  deriving DecidableEq, Repr

end Sys2Proof
end

