-- ==== Sys2Proof/Syntax.lean ====
section
/-! DEFINITION. The instructions: one constructor per row of spec/opcode_table.json. An
operand is the 16-bit field itself (30_encoding.md rule R52), so every term is encodable;
the three mnemonics of arity 0 (R58) carry none, because their operand bits are ignored
(R54). -/

namespace Sys2Proof

/-- The 25 instructions of R1. -/
inductive Instr where
  /-- HALT: stop the run (R79). -/
  | halt
  /-- LOAD: accumulator from the low half of a cell (R90). -/
  | load (opd : Half)
  /-- LOADI: accumulator from the operand (R91). -/
  | loadi (opd : Half)
  /-- STORE: the accumulator to a cell (R92). -/
  | store (opd : Half)
  /-- ADD (R101). -/
  | add (opd : Half)
  /-- ADDI (R102). -/
  | addi (opd : Half)
  /-- SUB (R103). -/
  | sub (opd : Half)
  /-- SUBI (R104). -/
  | subi (opd : Half)
  /-- MUL (R105). -/
  | mul (opd : Half)
  /-- MULI (R106). -/
  | muli (opd : Half)
  /-- DIV (R107). -/
  | div (opd : Half)
  /-- DIVI (R108). -/
  | divi (opd : Half)
  /-- MOD (R109). -/
  | mod (opd : Half)
  /-- MODI (R110). -/
  | modi (opd : Half)
  /-- CMP (R120). -/
  | cmp (opd : Half)
  /-- CMPI (R121). -/
  | cmpi (opd : Half)
  /-- JMPI: jump always (R132). -/
  | jmpi (opd : Half)
  /-- JEI: jump if equal (R133). -/
  | jei (opd : Half)
  /-- JNEI: jump if not equal (R134). -/
  | jnei (opd : Half)
  /-- JLI: jump if less (R135). -/
  | jli (opd : Half)
  /-- JLEI: jump if less or equal (R136). -/
  | jlei (opd : Half)
  /-- JGI: jump if greater (R137). -/
  | jgi (opd : Half)
  /-- JGEI: jump if greater or equal (R138). -/
  | jgei (opd : Half)
  /-- IN: one value from the input stream (R150). -/
  | inp
  /-- OUT: one character to the output stream (R151). -/
  | out
  deriving DecidableEq, Repr

end Sys2Proof
end

