-- ==== Sys2Proof/WellFormed.lean ====
section
/-! DEFINITION. The checks the spec asks of a configuration and of a program image. An
instruction needs none: its one field is a 16-bit vector by type (30_encoding.md rules R51
to R53), so every `Instr` is well formed. -/

namespace Sys2Proof

/-- No two mnemonics share an opcode (R56 b). -/
def OpcodeMap.wf (m : OpcodeMap) : Bool :=
  decide ((Mnemonic.all.map m.opcode).Nodup)

/-- `1 <= MEM_LEN <= 65536` (R4) and a legal opcode map (R56). -/
def Config.wf (c : Config) : Bool :=
  decide (1 ≤ c.memLen) && decide (c.memLen ≤ 65536) && c.opcodes.wf

/-- A program image fits the memory (R62, R162). -/
def Config.fits (c : Config) (image : List Word) : Bool :=
  decide (image.length ≤ c.memLen)

end Sys2Proof
end

