-- ==== Sys2Proof/Decode.lean ====
section
/-! DEFINITION. Decoding and encoding (30_encoding.md rules R50 to R60): the two fields of
a word, the opcode lookup, the decoder, the encoder, and the spec's default parameters
(R4, R55). The default opcode numbers are UNVERIFIED (notes/assumptions/3.md). -/

namespace Sys2Proof

/-- The default OPCODE_MAP of R55. UNVERIFIED: the spec recalls the numbers from general
knowledge (93_implementation_defined.md G1); any other injective map can stand in `cfg`. -/
def OpcodeMap.default : OpcodeMap where
  halt := 0x0100#16
  load := 0x0202#16
  loadi := 0x0201#16
  store := 0x0302#16
  add := 0x0402#16
  addi := 0x0401#16
  sub := 0x0502#16
  subi := 0x0501#16
  mul := 0x0602#16
  muli := 0x0601#16
  div := 0x0702#16
  divi := 0x0701#16
  mod := 0x0802#16
  modi := 0x0801#16
  cmp := 0x0902#16
  cmpi := 0x0901#16
  jmpi := 0x0A01#16
  jei := 0x0B01#16
  jnei := 0x0C01#16
  jli := 0x0D01#16
  jlei := 0x0E01#16
  jgi := 0x0F01#16
  jgei := 0x1001#16
  inp := 0x1100#16
  out := 0x1200#16

/-- The default configuration: `MEM_LEN = 60` (R4) and the map of R55. -/
def Config.default : Config where
  memLen := 60
  opcodes := OpcodeMap.default

/-- Addressing mode of each mnemonic (R58). -/
def Mnemonic.mode : Mnemonic → Mode
  | .halt => .none
  | .load => .indirectValue
  | .loadi => .immediateValue
  | .store => .indirectAddress
  | .add => .indirectValue
  | .addi => .immediateValue
  | .sub => .indirectValue
  | .subi => .immediateValue
  | .mul => .indirectValue
  | .muli => .immediateValue
  | .div => .indirectValue
  | .divi => .immediateValue
  | .mod => .indirectValue
  | .modi => .immediateValue
  | .cmp => .indirectValue
  | .cmpi => .immediateValue
  | .jmpi => .immediateTarget
  | .jei => .immediateTarget
  | .jnei => .immediateTarget
  | .jli => .immediateTarget
  | .jlei => .immediateTarget
  | .jgi => .immediateTarget
  | .jgei => .immediateTarget
  | .inp => .none
  | .out => .none

/-- Arity (R58): 0 when the operand bits are ignored, else 1. -/
def Mnemonic.arity (k : Mnemonic) : Nat :=
  if k.mode = .none then 0 else 1

/-- `opcode_of(w) = w[31:16]`, by the unsigned shift of R51. -/
def opcodeOf (w : Word) : Half := w.extractLsb' 16 16

/-- `operand_of(w) = w[15:0]` (R51), never sign-extended (R52). -/
def operandOf (w : Word) : Half := w.extractLsb' 0 16

/-- `encode(opcode, operand) = opcode ++ operand` (R53). -/
def joinFields (opcode operand : Half) : Word := opcode ++ operand

/-- `mnemonic_for`: the mnemonic whose opcode this is, or none for an unknown opcode (R54,
R57). -/
def OpcodeMap.mnemonicFor (m : OpcodeMap) (opcode : Half) : Option Mnemonic :=
  Mnemonic.all.find? fun k => m.opcode k == opcode

/-- The instruction of a mnemonic with an operand field; arity 0 ignores the field (R54,
R58). -/
def Mnemonic.toInstr (k : Mnemonic) (opd : Half) : Instr :=
  match k with
  | .halt => .halt
  | .load => .load opd
  | .loadi => .loadi opd
  | .store => .store opd
  | .add => .add opd
  | .addi => .addi opd
  | .sub => .sub opd
  | .subi => .subi opd
  | .mul => .mul opd
  | .muli => .muli opd
  | .div => .div opd
  | .divi => .divi opd
  | .mod => .mod opd
  | .modi => .modi opd
  | .cmp => .cmp opd
  | .cmpi => .cmpi opd
  | .jmpi => .jmpi opd
  | .jei => .jei opd
  | .jnei => .jnei opd
  | .jli => .jli opd
  | .jlei => .jlei opd
  | .jgi => .jgi opd
  | .jgei => .jgei opd
  | .inp => .inp
  | .out => .out

/-- The mnemonic of an instruction (R59: one each). -/
def Instr.mnemonic : Instr → Mnemonic
  | .halt => .halt
  | .load _ => .load
  | .loadi _ => .loadi
  | .store _ => .store
  | .add _ => .add
  | .addi _ => .addi
  | .sub _ => .sub
  | .subi _ => .subi
  | .mul _ => .mul
  | .muli _ => .muli
  | .div _ => .div
  | .divi _ => .divi
  | .mod _ => .mod
  | .modi _ => .modi
  | .cmp _ => .cmp
  | .cmpi _ => .cmpi
  | .jmpi _ => .jmpi
  | .jei _ => .jei
  | .jnei _ => .jnei
  | .jli _ => .jli
  | .jlei _ => .jlei
  | .jgi _ => .jgi
  | .jgei _ => .jgei
  | .inp => .inp
  | .out => .out

/-- The operand field an instruction assembles with; 0 for arity 0 (R61). -/
def Instr.operand : Instr → Half
  | .halt => 0
  | .load opd => opd
  | .loadi opd => opd
  | .store opd => opd
  | .add opd => opd
  | .addi opd => opd
  | .sub opd => opd
  | .subi opd => opd
  | .mul opd => opd
  | .muli opd => opd
  | .div opd => opd
  | .divi opd => opd
  | .mod opd => opd
  | .modi opd => opd
  | .cmp opd => opd
  | .cmpi opd => opd
  | .jmpi opd => opd
  | .jei opd => opd
  | .jnei opd => opd
  | .jli opd => opd
  | .jlei opd => opd
  | .jgi opd => opd
  | .jgei opd => opd
  | .inp => 0
  | .out => 0

/-- Why a word is no instruction. -/
inductive Reject where
  /-- Bits 31:16 are not in OPCODE_MAP (R57). -/
  | unknownOpcode (opcode : Half)
  deriving DecidableEq, Repr

/-- Decode any word (R54): bits 31:16 alone select the mnemonic. -/
def decode (m : OpcodeMap) (w : Word) : Except Reject Instr :=
  match m.mnemonicFor (opcodeOf w) with
  | some k => .ok (k.toInstr (operandOf w))
  | none => .error (.unknownOpcode (opcodeOf w))

/-- The word of an instruction (R53, R55 "word for operand x", R61). -/
def encode (m : OpcodeMap) (i : Instr) : Word :=
  joinFields (m.opcode i.mnemonic) i.operand

/-- What the decoder reads, under the default map, from a table word: one 32-bit word, bit 0
its least significant bit; bits from `nbits` up are 0. -/
def decodeTableWord (nbits w : Nat) : Option Instr :=
  (decode OpcodeMap.default (BitVec.ofNat 32 (w % 2 ^ nbits))).toOption

end Sys2Proof
end

