-- ==== Sys2Proof/Machine/State.lean ====
section
/-! DEFINITION. The state of the machine (10_state.md rules R10 to R19), with the streams'
side of the environment (45_io.md) and the configuration the step is taken under, and the
state after reset. -/

namespace Sys2Proof.Machine

/-- Memory as (address, word) pairs; an unlisted cell holds 0, its reset value (R19). The
unit is one 32-bit word, never split into bytes (R33; notes/assumptions/1.md, DEDUCED). -/
abbrev Memory := List (Nat × Word)

/-- The canonical form: addresses strictly rising, and no cell listed at its unlisted value. -/
abbrev Memory.wf (m : Memory) : Prop :=
  m.Pairwise (fun c d => c.1 < d.1) ∧ ∀ c ∈ m, c.2 ≠ 0

/-- Every listed cell exists: its address is below `n`. -/
abbrev Memory.below (n : Nat) (m : Memory) : Prop := ∀ c ∈ m, c.1 < n

/-- The run state RS (R16). -/
inductive RunState where
  /-- Reset done, no step executed yet. -/
  | ready
  /-- At least one step executed. -/
  | running
  /-- A HALT executed. -/
  | halted
  /-- A fault was raised. -/
  | faulted
  deriving DecidableEq, Repr

/-- The value of FCAUSE (R17, R180). -/
inductive FaultCause where
  /-- RS is not FAULTED. -/
  | none
  /-- The fetch address is out of range (R181). -/
  | ipOob
  /-- A data address is out of range (R182). -/
  | addrOob
  /-- The target of a taken jump is out of range (R183). -/
  | targetOob
  /-- The opcode is not in OPCODE_MAP (R184). -/
  | unknownOpcode
  /-- DIV or DIVI by zero (R185). -/
  | divZero
  /-- IN on an ended stream (R188). -/
  | inputExhausted
  deriving DecidableEq, Repr

/-- Faults of the host's outcome. There are none: the spec describes what each of its six
faults does to the state (R186), so each is a next state with RS = FAULTED
(notes/assumptions/7.md, DEDUCED). Nothing raises one; that is safe. -/
inductive Fault where
  deriving DecidableEq, Repr

/-- Refusals of the host's outcome. -/
inductive Refusal where
  /-- An instruction without a meaning, raised by `exec`'s arm alone. Every instruction has a
  meaning, so nothing raises it; that is safe. -/
  | notModelled (mnemonic : String)
  deriving DecidableEq, Repr

/-- The environment's answer to IN (R152). -/
inductive Answer where
  /-- The next value, consumed. -/
  | got (x : Word)
  /-- The stream has ended. -/
  | exhausted
  /-- No value yet. -/
  | notReady
  deriving DecidableEq, Repr

/-- The machine. The first nine registers are the spec's state (R10); then the streams,
which belong to the environment (R18, R21; notes/assumptions/4.md, DESIGN CHOICE); then the
configuration, which no step changes (R56 d; notes/assumptions/2.md, DESIGN CHOICE). -/
structure State where
  /-- MEM (R11). -/
  mem : Memory
  /-- ACC (R12). -/
  acc : Word
  /-- IP (R13). -/
  ip : Word
  /-- IR (R14). -/
  ir : Word
  /-- ZF (R15). -/
  zf : Bool
  /-- NF (R15). -/
  nf : Bool
  /-- RS (R16). -/
  rs : RunState
  /-- FCAUSE (R17). -/
  fcause : FaultCause
  /-- FINFO (R17). -/
  finfo : Word
  /-- The values IN has not consumed yet, the next one first (R152, R163). -/
  input : List Word
  /-- No value will follow those in `input` (R152, R163 `in_eos`). -/
  inputEnded : Bool
  /-- The codes OUT has emitted, the oldest first (R153, R164). -/
  output : List Byte
  /-- MEM_LEN and OPCODE_MAP (R4, R5). -/
  cfg : Config
  deriving DecidableEq, Repr

/-- The state after reset under a configuration (R19, R210, R211). The streams are not the
core's: empty input that has ended, empty output (notes/assumptions/5.md, DESIGN CHOICE). -/
def State.resetWith (c : Config) : State where
  mem := []
  acc := 0
  ip := 0
  ir := 0
  zf := false
  nf := false
  rs := .ready
  fcause := .none
  finfo := 0
  input := []
  inputEnded := true
  output := []
  cfg := c

/-- The state after reset under the default configuration (R4, R19, R55). -/
def State.reset : State := State.resetWith Config.default

/-- What a step answers. -/
abbrev Result := Host.Outcome State Fault Refusal

end Sys2Proof.Machine
end

