-- ==== Sys2Proof/Machine/Ops.lean ====
section
/-! DEFINITION. The named operations over memory, registers and streams, fault entry
(60_exceptions.md rule R186) and, beside it, the only way out of a fault, the reset of the
core (R187, R161). -/

namespace Sys2Proof.Machine

/-- `MEM[a]`: a listed word, else 0 (R19, R37). -/
def Memory.read (m : Memory) (a : Nat) : Word :=
  match m with
  | [] => 0
  | (b, v) :: rest => if b = a then v else Memory.read rest a

/-- Take the cell `a` off the list. -/
def Memory.erase (m : Memory) (a : Nat) : Memory :=
  m.filter fun c => c.1 != a

/-- List the cell `a` before the first greater address. -/
def Memory.insert (m : Memory) (a : Nat) (v : Word) : Memory :=
  match m with
  | [] => [(a, v)]
  | (b, w) :: rest =>
    if a < b then (a, v) :: (b, w) :: rest else (b, w) :: Memory.insert rest a v

/-- `MEM[a] <- v`, keeping the canonical form: a cell that becomes 0 is not listed. -/
def Memory.write (m : Memory) (a : Nat) (v : Word) : Memory :=
  if v = 0 then m.erase a else (m.erase a).insert a v

/-- A step can occur in this run state (R70). -/
def State.enabled (s : State) : Bool :=
  match s.rs with
  | .ready => true
  | .running => true
  | .halted => false
  | .faulted => false

/-- `IR <- word`, and READY becomes RUNNING (R72, R75). -/
def State.latch (s : State) (word : Word) : State :=
  { s with rs := .running, ir := word }

/-- `ACC <- v`. -/
def State.setAcc (s : State) (v : Word) : State :=
  { s with acc := v }

/-- `(ZF, NF) <- f`, always both (R15). -/
def State.setFlags (s : State) (f : Bool × Bool) : State :=
  { s with zf := f.1, nf := f.2 }

/-- The trailing increment `IP <- IP + 1`, not bounds-checked (R74). -/
def State.advance (s : State) : State :=
  { s with ip := s.ip + 1 }

/-- `MEM[a] <- v`, for an address already checked. -/
def State.writeCell (s : State) (a : Nat) (v : Word) : State :=
  { s with mem := s.mem.write a v }

/-- `RS <- HALTED` (R79). -/
def State.halt (s : State) : State :=
  { s with rs := .halted }

/-- `IP <- target; IR <- MEM[target]`, the redirect and the refresh of a taken jump, for a
target already checked (R130). -/
def State.redirect (s : State) (target : Half) : State :=
  { s with ip := target.setWidth 32, ir := s.mem.read target.toNat }

/-- Fault entry `raise Fault(cause, info)` (R186). It is applied to the state before any of
the step's own writes but the latch, so every other write of the step is discarded. -/
def State.raise (s : State) (cause : FaultCause) (info : Word) : State :=
  { s with rs := .faulted, fcause := cause, finfo := info }

/-- The core's reset from any state (R161, R210). The streams are not the core's and stay
as they are; the configuration is fixed. There is no other return from a fault (R187). -/
def State.resetCore (s : State) : State :=
  { State.resetWith s.cfg with
    input := s.input, inputEnded := s.inputEnded, output := s.output }

/-- What the environment answers an IN asked now (R152, R163). -/
def State.answer (s : State) : Answer :=
  match s.input, s.inputEnded with
  | x :: _, _ => .got x
  | [], true => .exhausted
  | [], false => .notReady

/-- One input value is consumed (R152, `in_take` of R163). -/
def State.takeInput (s : State) : State :=
  { s with input := s.input.tail }

/-- `Emit(c)`: one code appended to the output stream (R153, R164). -/
def State.emit (s : State) (c : Byte) : State :=
  { s with output := s.output ++ [c] }

end Sys2Proof.Machine
end

