-- ==== Sys2Proof/Machine/Operands.lean ====
section
/-! DEFINITION. The operand forms: the value of an operand (40_step_and_halt.md rule R82)
and the bound check of a data address and of a jump target (R31, R182, R183). -/

namespace Sys2Proof.Machine

/-- `zext_32` of a 16-bit field (R52). -/
def zext32 (h : Half) : Word := h.setWidth 32

/-- `low16(w) = zext_32(w[15:0])`, what a memory-indirect read yields (R32, R82). -/
def low16 (w : Word) : Word := zext32 (operandOf w)

/-- `Value(imm, opd)` (R82). -/
def immediate (opd : Half) : Word := zext32 opd

/-- Go on with a data address that exists, else raise ADDR_OOB with the address (R31,
R182). -/
def State.withAddress (s : State) (opd : Half) (k : Nat → State) : State :=
  if opd.toNat < s.cfg.memLen then k opd.toNat else s.raise .addrOob (zext32 opd)

/-- Go on with `Value(ind, opd)`, the low half of the addressed cell (R82). -/
def State.withIndirect (s : State) (opd : Half) (k : Word → State) : State :=
  s.withAddress opd fun a => k (low16 (s.mem.read a))

/-- `Jump(target)` (R130): raise TARGET_OOB with the target where it does not exist. -/
def State.jump (s : State) (target : Half) : State :=
  if target.toNat < s.cfg.memLen then s.redirect target
  else s.raise .targetOob (zext32 target)

/-- A conditional jump: the condition is evaluated first (R189); untaken, only the pc
advances (R131). -/
def State.jumpIf (s : State) (taken : Bool) (target : Half) : State :=
  if taken then s.jump target else s.advance

end Sys2Proof.Machine
end

