-- ==== Sys2Proof/Machine/Flags.lean ====
section
/-! DEFINITION. The ALU's narrowing and flag generation (43_compare.md rule R122), and the
conditions the jumps read from the flags (44_jumps.md rules R133 to R138). -/

namespace Sys2Proof.Machine

/-- `signed(x)`, two's complement (00_scope.md section 3; representation PRESUMED,
notes/assumptions/9.md). -/
def signed (x : Word) : Int := x.toInt

/-- `wrap32(n)`: the word congruent to `n` modulo 2^32 (00_scope.md section 3). -/
def wrap32 (n : Int) : Word := BitVec.ofInt 32 n

/-- `cmp(ACC, v)`: both flags from the wrapped 32-bit difference (R122). -/
def compareFlags (acc v : Word) : Bool × Bool :=
  let d := wrap32 (signed acc - signed v)
  (d == 0, d.msb)

/-- JEI's condition: ZF = 1 (R133). -/
def State.isEqual (s : State) : Bool := s.zf

/-- JNEI's condition: ZF = 0 (R134). -/
def State.isNotEqual (s : State) : Bool := !s.zf

/-- JLI's condition: NF = 1 (R135). -/
def State.isLess (s : State) : Bool := s.nf

/-- JLEI's condition: ZF = 1 or NF = 1 (R136). -/
def State.isLessOrEqual (s : State) : Bool := s.zf || s.nf

/-- JGI's condition: ZF = 0 and NF = 0 (R137). -/
def State.isGreater (s : State) : Bool := !s.zf && !s.nf

/-- JGEI's condition: NF = 0 (R138, D25). -/
def State.isGreaterOrEqual (s : State) : Bool := !s.nf

end Sys2Proof.Machine
end

