-- ==== Sys2Proof/Machine/Arithmetic.lean ====
section
/-! DEFINITION. ADD, SUB, MUL, DIV, MOD and their immediate forms (42_arithmetic.md). No
arithmetic instruction writes a flag or memory (R100). -/

namespace Sys2Proof.Machine

/-- `wrap32(signed(ACC) + v)` (R101, R111). -/
def aluAdd (acc v : Word) : Word := wrap32 (signed acc + signed v)

/-- `wrap32(signed(ACC) - v)` (R103, R111). -/
def aluSub (acc v : Word) : Word := wrap32 (signed acc - signed v)

/-- `wrap32(signed(ACC) * v)` (R105, R111). -/
def aluMul (acc v : Word) : Word := wrap32 (signed acc * signed v)

/-- `wrap32(tdiv(signed(ACC), v))`, the quotient rounded toward zero (R107, R112). -/
def aluDiv (acc v : Word) : Word := wrap32 (Int.tdiv (signed acc) (signed v))

/-- 0 for a zero divisor, else `wrap32(trem(signed(ACC), v))` (R109, R112, R113). -/
def aluMod (acc v : Word) : Word :=
  if v = 0 then 0 else wrap32 (Int.tmod (signed acc) (signed v))

/-- `ACC <- r` and the trailing increment (R100, R74). -/
def State.finish (s : State) (r : Word) : State := (s.setAcc r).advance

/-- Division by `v`: a zero divisor raises DIV_ZERO with the address of the instruction
(R113, R185). -/
def State.divide (s : State) (v : Word) : State :=
  if v = 0 then s.raise .divZero s.ip else s.finish (aluDiv s.acc v)

/-- ADD (R101). -/
def execAdd (opd : Half) (s : State) : Result :=
  .next (s.withIndirect opd fun v => s.finish (aluAdd s.acc v))

/-- ADDI (R102). -/
def execAddi (opd : Half) (s : State) : Result :=
  .next (s.finish (aluAdd s.acc (immediate opd)))

/-- SUB (R103). -/
def execSub (opd : Half) (s : State) : Result :=
  .next (s.withIndirect opd fun v => s.finish (aluSub s.acc v))

/-- SUBI (R104). -/
def execSubi (opd : Half) (s : State) : Result :=
  .next (s.finish (aluSub s.acc (immediate opd)))

/-- MUL (R105). -/
def execMul (opd : Half) (s : State) : Result :=
  .next (s.withIndirect opd fun v => s.finish (aluMul s.acc v))

/-- MULI (R106). -/
def execMuli (opd : Half) (s : State) : Result :=
  .next (s.finish (aluMul s.acc (immediate opd)))

/-- DIV (R107): the address check comes before the zero test (R114). -/
def execDiv (opd : Half) (s : State) : Result :=
  .next (s.withIndirect opd fun v => s.divide v)

/-- DIVI (R108). -/
def execDivi (opd : Half) (s : State) : Result :=
  .next (s.divide (immediate opd))

/-- MOD (R109). -/
def execMod (opd : Half) (s : State) : Result :=
  .next (s.withIndirect opd fun v => s.finish (aluMod s.acc v))

/-- MODI (R110). -/
def execModi (opd : Half) (s : State) : Result :=
  .next (s.finish (aluMod s.acc (immediate opd)))

end Sys2Proof.Machine
end

