-- ==== Sys2Proof/Machine/Compare.lean ====
section
/-! DEFINITION. CMP and CMPI (43_compare.md rules R120, R121): the only writers of the
flags. -/

namespace Sys2Proof.Machine

/-- CMP (R120). -/
def execCmp (opd : Half) (s : State) : Result :=
  .next (s.withIndirect opd fun v => (s.setFlags (compareFlags s.acc v)).advance)

/-- CMPI (R121). -/
def execCmpi (opd : Half) (s : State) : Result :=
  .next (s.setFlags (compareFlags s.acc (immediate opd))).advance

end Sys2Proof.Machine
end

