-- ==== Sys2Proof/Machine/Control.lean ====
section
/-! DEFINITION. HALT (40_step_and_halt.md rule R79). -/

namespace Sys2Proof.Machine

/-- HALT (R79): RS alone changes; no trailing increment. -/
def execHalt (s : State) : Result := .next s.halt

end Sys2Proof.Machine
end

