-- ==== Sys2Proof/Machine/Jumps.lean ====
section
/-! DEFINITION. The seven jumps (44_jumps.md rules R132 to R138). -/

namespace Sys2Proof.Machine

/-- JMPI (R132). -/
def execJmpi (opd : Half) (s : State) : Result := .next (s.jump opd)

/-- JEI (R133). -/
def execJei (opd : Half) (s : State) : Result := .next (s.jumpIf s.isEqual opd)

/-- JNEI (R134). -/
def execJnei (opd : Half) (s : State) : Result := .next (s.jumpIf s.isNotEqual opd)

/-- JLI (R135). -/
def execJli (opd : Half) (s : State) : Result := .next (s.jumpIf s.isLess opd)

/-- JLEI (R136). -/
def execJlei (opd : Half) (s : State) : Result := .next (s.jumpIf s.isLessOrEqual opd)

/-- JGI (R137). -/
def execJgi (opd : Half) (s : State) : Result := .next (s.jumpIf s.isGreater opd)

/-- JGEI (R138). -/
def execJgei (opd : Half) (s : State) : Result := .next (s.jumpIf s.isGreaterOrEqual opd)

end Sys2Proof.Machine
end

