-- ==== Sys2Proof/Machine/LoadStore.lean ====
section
/-! DEFINITION. LOAD, LOADI, STORE (41_load_store.md rules R90 to R92). -/

namespace Sys2Proof.Machine

/-- LOAD (R90): the low half of the cell, zero-extended. -/
def execLoad (opd : Half) (s : State) : Result :=
  .next (s.withIndirect opd fun v => (s.setAcc v).advance)

/-- LOADI (R91). -/
def execLoadi (opd : Half) (s : State) : Result :=
  .next (s.setAcc (immediate opd)).advance

/-- STORE (R92): all 32 bits of ACC, unmasked. -/
def execStore (opd : Half) (s : State) : Result :=
  .next (s.withAddress opd fun a => (s.writeCell a s.acc).advance)

end Sys2Proof.Machine
end

