-- ==== Sys2Proof/Machine/StreamIO.lean ====
section
/-! DEFINITION. IN and OUT (45_io.md rules R150, R151). -/

namespace Sys2Proof.Machine

/-- IN (R150). Not ready is a hold: no state changes. A whole step that would be held does
not get here, since it does not even latch (R75): `beginStep` ends it first
(notes/assumptions/12.md, DESIGN CHOICE). -/
def execIn (s : State) : Result :=
  match s.answer with
  | .got x => .next (s.takeInput.setAcc x).advance
  | .exhausted => .next (s.raise .inputExhausted s.ip)
  | .notReady => .next s

/-- `ACC[7:0]`, the code OUT emits (R151). -/
def State.outCode (s : State) : Byte := s.acc.extractLsb' 0 8

/-- OUT (R151). -/
def execOut (s : State) : Result := .next (s.emit s.outCode).advance

end Sys2Proof.Machine
end

