-- ==== Sys2Proof/Machine/Dispatch.lean ====
section
/-! DEFINITION. One arm per instruction (30_encoding.md rule R59: each mnemonic performs its
own rule and no other's). `exec` runs on the state with the word latched. -/

namespace Sys2Proof.Machine

def exec (i : Instr) (s : State) : Host.Outcome State Fault Refusal :=
  match i with
  | .halt => Sys2Proof.Machine.execHalt s
  | .load opd => Sys2Proof.Machine.execLoad opd s
  | .loadi opd => Sys2Proof.Machine.execLoadi opd s
  | .store opd => Sys2Proof.Machine.execStore opd s
  | .add opd => Sys2Proof.Machine.execAdd opd s
  | .addi opd => Sys2Proof.Machine.execAddi opd s
  | .sub opd => Sys2Proof.Machine.execSub opd s
  | .subi opd => Sys2Proof.Machine.execSubi opd s
  | .mul opd => Sys2Proof.Machine.execMul opd s
  | .muli opd => Sys2Proof.Machine.execMuli opd s
  | .div opd => Sys2Proof.Machine.execDiv opd s
  | .divi opd => Sys2Proof.Machine.execDivi opd s
  | .mod opd => Sys2Proof.Machine.execMod opd s
  | .modi opd => Sys2Proof.Machine.execModi opd s
  | .cmp opd => Sys2Proof.Machine.execCmp opd s
  | .cmpi opd => Sys2Proof.Machine.execCmpi opd s
  | .jmpi opd => Sys2Proof.Machine.execJmpi opd s
  | .jei opd => Sys2Proof.Machine.execJei opd s
  | .jnei opd => Sys2Proof.Machine.execJnei opd s
  | .jli opd => Sys2Proof.Machine.execJli opd s
  | .jlei opd => Sys2Proof.Machine.execJlei opd s
  | .jgi opd => Sys2Proof.Machine.execJgi opd s
  | .jgei opd => Sys2Proof.Machine.execJgei opd s
  | .inp => Sys2Proof.Machine.execIn s
  | .out => Sys2Proof.Machine.execOut s

end Sys2Proof.Machine
end

