-- ==== Sys2Proof/Machine/Fetch.lean ====
section
/-! DEFINITION. The front of a step, up to dispatch (40_step_and_halt.md rules R70 to R73):
enabling, fetch, decode, the hold of an unready IN, and the latch. -/

namespace Sys2Proof.Machine

/-- What the front of a step comes to. -/
inductive Begun where
  /-- The step is over, or does not occur, and this is the state. -/
  | ended (t : State)
  /-- The instruction to perform, and the state with the word latched. -/
  | run (i : Instr) (t : State)
  deriving DecidableEq, Repr

/-- The word the next fetch reads (R71). -/
def State.fetchWord (s : State) : Word := s.mem.read s.ip.toNat

/-- The step of this instruction cannot occur yet: an IN with no answer (R75, R150). -/
def State.holds (s : State) (i : Instr) : Bool :=
  decide (i = .inp) && decide (s.answer = .notReady)

/-- The front of a step. A stopped core does nothing (R70, R165); the fetch bound comes
first and leaves IR alone (R71, R181); an unknown opcode faults with IR latched (R73,
R184); a held IN changes nothing at all, not even IR or RS (R75, R150). -/
def beginStep (s : State) : Begun :=
  if s.enabled then
    if s.ip.toNat < s.cfg.memLen then
      match decode s.cfg.opcodes s.fetchWord with
      | .error _ => .ended ((s.latch s.fetchWord).raise .unknownOpcode s.fetchWord)
      | .ok i => if s.holds i then .ended s else .run i (s.latch s.fetchWord)
    else .ended (s.raise .ipOob s.ip)
  else .ended s

end Sys2Proof.Machine
end

