-- ==== Sys2Proof/Machine/Step.lean ====
section
/-! DEFINITION. The step (40_step_and_halt.md rule R75). -/

namespace Sys2Proof.Machine

/-- One `Step` transaction (R75, R165): the front of the step, then the instruction. -/
def step (s : State) : Host.Outcome State Fault Refusal :=
  match beginStep s with
  | .ended t => .next t
  | .run i t => exec i t

/-- `s` with a table word in the cell the next step fetches. One instruction is one word
(R50), so nothing follows it. Used on a state whose `ip` is in range and whose run state is
READY or RUNNING, as State.reset is; it stands for the loader (notes/assumptions/11.md,
DEDUCED). -/
def State.withFetchWord (s : State) (nbits w : Nat) : State :=
  { s with mem := s.mem.write s.ip.toNat (BitVec.ofNat 32 (w % 2 ^ nbits)) }

end Sys2Proof.Machine
end

