-- ==== Sys2Proof/Machine/Interface.lean ====
section
/-! DEFINITION. The interfaces to the host, the loader and the streams (50_interfaces.md):
what the world outside can do between two steps, and what it can see. -/

namespace Sys2Proof.Machine

/-- The two-bit code of RS (R16). -/
def RunState.code : RunState → BitVec 2
  | .ready => 0
  | .running => 1
  | .halted => 2
  | .faulted => 3

/-- The three-bit code of FCAUSE (R180); 7 is never written. -/
def FaultCause.code : FaultCause → BitVec 3
  | .none => 0
  | .ipOob => 1
  | .addrOob => 2
  | .targetOob => 3
  | .unknownOpcode => 4
  | .divZero => 5
  | .inputExhausted => 6

/-- `LoadWord(a, w)` (R162): accepted only while READY and for a cell that exists, else
refused, which changes nothing. -/
def State.loadWord (s : State) (a : Nat) (w : Word) : State :=
  if s.rs = .ready ∧ a < s.cfg.memLen then s.writeCell a w else s

/-- The image's words to consecutive addresses from `a` up (R62, R162). -/
def State.loadFrom (s : State) (a : Nat) (image : List Word) : State :=
  match image with
  | [] => s
  | w :: rest => (s.loadWord a w).loadFrom (a + 1) rest

/-- Reset, then the image from address 0 (R212; notes/assumptions/11.md, DEDUCED). -/
def State.boot (s : State) (image : List Word) : State :=
  s.resetCore.loadFrom 0 image

/-- A further input value arrives; none can after the end (R152, R163). -/
def State.supply (s : State) (x : Word) : State :=
  if s.inputEnded then s else { s with input := s.input ++ [x] }

/-- The input stream ends after the values already supplied (R152, R163 `in_eos`). -/
def State.endInput (s : State) : State :=
  { s with inputEnded := true }

/-- The host gives a fresh input stream before the first step, as a rewind on reset is its
business (R161; notes/assumptions/10.md, DESIGN CHOICE). -/
def State.attach (s : State) (input : List Word) (ended : Bool) : State :=
  if s.rs = .ready then { s with input := input, inputEnded := ended } else s

/-- What the world outside does between steps (R160): the four transactions of the host, and
the moves of the input stream. Issuing no `step` is the host's pause (R166). -/
inductive Move where
  /-- `Reset` (R161). -/
  | reset
  /-- `LoadWord(a, w)` (R162). -/
  | loadWord (a : Nat) (w : Word)
  /-- `Step` (R165). -/
  | step
  /-- `Snapshot` (R168). -/
  | snapshot
  /-- The input stream has one more value (R163). -/
  | supply (x : Word)
  /-- The input stream ends (R163). -/
  | endInput
  /-- A fresh input stream (R161). -/
  | attach (input : List Word) (ended : Bool)
  deriving DecidableEq, Repr

/-- What a move does to the machine. The host has no other (R167). -/
def transact (m : Move) (s : State) : Result :=
  match m with
  | .reset => .next s.resetCore
  | .loadWord a w => .next (s.loadWord a w)
  | .step => step s
  | .snapshot => .next s
  | .supply x => .next (s.supply x)
  | .endInput => .next s.endInput
  | .attach input ended => .next (s.attach input ended)

/-- Moves one after another (R43: never inside a step). -/
def runMoves (ms : List Move) (s : State) : Result :=
  match ms with
  | [] => .next s
  | m :: rest =>
    match transact m s with
    | .next t => runMoves rest t
    | .fault r => .fault r
    | .refused r => .refused r

/-- What `Snapshot` returns (R168, R169): registers, the full memory contents and the fault
status. -/
structure Snapshot where
  acc : Word
  ip : Word
  ir : Word
  zf : Bool
  nf : Bool
  memory : List Word
  rs : BitVec 2
  fcause : BitVec 3
  finfo : Word
  deriving DecidableEq, Repr

/-- The snapshot of a state, taken between steps (R168). -/
def State.snapshot (s : State) : Snapshot where
  acc := s.acc
  ip := s.ip
  ir := s.ir
  zf := s.zf
  nf := s.nf
  memory := (List.range s.cfg.memLen).map s.mem.read
  rs := s.rs.code
  fcause := s.fcause.code
  finfo := s.finfo

/-- The four outcomes of a step (R77). -/
inductive StepOutcome where
  /-- An instruction other than HALT completed. -/
  | continued
  /-- The instruction was HALT. -/
  | halt
  /-- A fault, with FCAUSE and FINFO. -/
  | fault (cause : FaultCause) (info : Word)
  /-- IN has no input yet; no step occurred. -/
  | hold
  deriving DecidableEq, Repr

/-- The next `Step` would be a hold: it is enabled, its fetch succeeds, and it is an IN
without an answer (R75, R150). -/
def State.held (s : State) : Bool :=
  s.enabled && decide (s.ip.toNat < s.cfg.memLen) &&
    match decode s.cfg.opcodes s.fetchWord with
    | .ok i => s.holds i
    | .error _ => false

/-- The outcome the host reads from the state a `Step` answered (R77, R165, R169); READY
after a `Step` is a hold. -/
def State.report (t : State) : StepOutcome :=
  match t.rs with
  | .ready => .hold
  | .running => .continued
  | .halted => .halt
  | .faulted => .fault t.fcause t.finfo

/-- The outcome of a `Step` issued at `s` (R77). -/
def stepOutcome (s : State) : StepOutcome :=
  if s.held then .hold
  else
    match step s with
    | .next t => t.report
    | .fault r => nomatch r
    | .refused _ => s.report

/-- The instruction the front of a step goes on to perform, if any. -/
def Begun.performs : Begun → Option Instr
  | .ended _ => none
  | .run i _ => some i

/-- `in_take` (R163): a `Step` at `s` consumes an input value. -/
def State.inTake (s : State) : Bool :=
  decide ((beginStep s).performs = some .inp) && !s.input.isEmpty

/-- `out_valid` and `out_data` (R164): the character a `Step` at `s` emits, if any. -/
def State.outData (s : State) : Option Byte :=
  if (beginStep s).performs = some .out then some s.outCode else none

end Sys2Proof.Machine
end

