-- ==== Sys2Proof/Safety.lean ====
section
/-! DEFINITION. What counts as a finished and a failed run (70_reset_and_hazards.md rule
R218), the invariants of the machine, and the words the statements use. -/

namespace Sys2Proof

/-- Whether an instruction is a taken jump under the flags, and its target (R132 to R138). -/
def Instr.takenTarget (zf nf : Bool) : Instr → Option Half
  | .jmpi x => some x
  | .jei x => if zf = true then some x else none
  | .jnei x => if zf = false then some x else none
  | .jli x => if nf = true then some x else none
  | .jlei x => if zf = true ∨ nf = true then some x else none
  | .jgi x => if zf = false ∧ nf = false then some x else none
  | .jgei x => if nf = false then some x else none
  | .halt => none
  | .load _ => none
  | .loadi _ => none
  | .store _ => none
  | .add _ => none
  | .addi _ => none
  | .sub _ => none
  | .subi _ => none
  | .mul _ => none
  | .muli _ => none
  | .div _ => none
  | .divi _ => none
  | .mod _ => none
  | .modi _ => none
  | .cmp _ => none
  | .cmpi _ => none
  | .inp => none
  | .out => none

/-- The instructions R12 lists as writing ACC. -/
def Mnemonic.writesAcc : Mnemonic → Bool
  | .halt => false
  | .load => true
  | .loadi => true
  | .store => false
  | .add => true
  | .addi => true
  | .sub => true
  | .subi => true
  | .mul => true
  | .muli => true
  | .div => true
  | .divi => true
  | .mod => true
  | .modi => true
  | .cmp => false
  | .cmpi => false
  | .jmpi => false
  | .jei => false
  | .jnei => false
  | .jli => false
  | .jlei => false
  | .jgi => false
  | .jgei => false
  | .inp => true
  | .out => false

/-- The instructions R15 lists as writing ZF and NF. -/
def Mnemonic.writesFlags : Mnemonic → Bool
  | .halt => false
  | .load => false
  | .loadi => false
  | .store => false
  | .add => false
  | .addi => false
  | .sub => false
  | .subi => false
  | .mul => false
  | .muli => false
  | .div => false
  | .divi => false
  | .mod => false
  | .modi => false
  | .cmp => true
  | .cmpi => true
  | .jmpi => false
  | .jei => false
  | .jnei => false
  | .jli => false
  | .jlei => false
  | .jgi => false
  | .jgei => false
  | .inp => false
  | .out => false

end Sys2Proof

namespace Sys2Proof.Machine

/-- A run has ended (R218). -/
def State.Finished (s : State) : Prop := s.rs = .halted

/-- A run has failed (R218, R187). -/
def State.Failed (s : State) : Prop := s.rs = .faulted

/-- The run is still going, a paused core and a held IN among them (R218). -/
def State.Going (s : State) : Prop := ¬ s.Finished ∧ ¬ s.Failed

/-- What holds of the registers and the memory between steps. -/
structure State.Inv (s : State) : Prop where
  /-- A legal configuration (R4, R56). -/
  cfgLegal : s.cfg.wf = true
  /-- The memory list is canonical. -/
  memCanonical : s.mem.wf
  /-- Only cells that exist are listed (R11, R31). -/
  memExists : s.mem.below s.cfg.memLen
  /-- `IP <= MEM_LEN` (R13). -/
  ipBound : s.ip.toNat ≤ s.cfg.memLen
  /-- `(ZF, NF) = (1, 1)` is unreachable (R15, R123). -/
  flagsExclusive : ¬ (s.zf = true ∧ s.nf = true)

/-- The mnemonic of the word in IR (R73). -/
def State.irMnemonic (s : State) : Option Mnemonic :=
  s.cfg.opcodes.mnemonicFor (opcodeOf s.ir)

/-- FCAUSE and FINFO agree with RS and, on a fault, with the table of R180: the instruction
that raised it is in IR, and FINFO is what the table says (R17, R181 to R185, R188). -/
def State.FaultRecord (s : State) : Prop :=
  if s.rs = .faulted then
    match s.fcause with
    | .none => False
    | .ipOob => s.finfo = s.ip ∧ s.cfg.memLen ≤ s.ip.toNat
    | .addrOob =>
        s.finfo.toNat = (operandOf s.ir).toNat ∧ s.cfg.memLen ≤ (operandOf s.ir).toNat ∧
        ∃ k, s.irMnemonic = some k ∧ (k.mode = .indirectValue ∨ k.mode = .indirectAddress)
    | .targetOob =>
        s.finfo.toNat = (operandOf s.ir).toNat ∧ s.cfg.memLen ≤ (operandOf s.ir).toNat ∧
        ∃ k, s.irMnemonic = some k ∧ k.mode = .immediateTarget
    | .unknownOpcode => s.finfo = s.ir ∧ s.irMnemonic = none
    | .divZero => s.finfo = s.ip ∧ (s.irMnemonic = some .div ∨ s.irMnemonic = some .divi)
    | .inputExhausted =>
        s.finfo = s.ip ∧ s.irMnemonic = some .inp ∧ s.input = [] ∧ s.inputEnded = true
  else s.fcause = .none ∧ s.finfo = 0

/-- READY means that no register has moved since reset (R16, R19, R167); HALTED means that
IP is the address of the HALT word, which IR holds too (R79, R171). -/
def State.RunRecord (s : State) : Prop :=
  (s.rs = .ready → s.acc = 0 ∧ s.ip = 0 ∧ s.ir = 0 ∧ s.zf = false ∧ s.nf = false) ∧
  (s.rs = .halted → s.ip.toNat < s.cfg.memLen ∧ s.ir = s.mem.read s.ip.toNat ∧
    s.irMnemonic = some .halt)

/-- Every cell reads in `t` as in `s`. -/
def State.SameMemory (s t : State) : Prop := ∀ a : Nat, t.mem.read a = s.mem.read a

/-- Cell `x` reads as `v` in `t`, and every other cell as in `s`. -/
def State.WroteCell (s t : State) (x : Nat) (v : Word) : Prop :=
  ∀ a : Nat, t.mem.read a = if a = x then v else s.mem.read a

/-- A `Step` at `s` performs `i`: it is enabled, its fetch succeeds, the word decodes to `i`,
and it is not held (R70 to R73, R75). -/
def State.Performs (s : State) (i : Instr) : Prop :=
  s.enabled = true ∧ s.ip.toNat < s.cfg.memLen ∧
  decode s.cfg.opcodes (s.mem.read s.ip.toNat) = .ok i ∧
  ¬ (i = .inp ∧ s.answer = .notReady)

/-- The low 16 bits of a cell as a number, the value of a memory-indirect operand (R82). -/
def State.lowHalf (s : State) (opd : Half) : Nat := (s.mem.read opd.toNat).toNat % 65536

end Sys2Proof.Machine
end

