-- ==== Sys2Proof/Certificates/Slice0/Obligations.lean ====
section
/-! DEFINITION. The statements for the provers, from the numbered rules of the spec. In all
of them `exec` is taken at the state with the word already latched, as `step` takes it
(StepRunsDecodedInstruction), and a state is any state whatever unless a premise says more. -/

open Sys2Proof Sys2Proof.Machine

/-! ### Encoding (30_encoding.md) -/

/-- The words of 95_test_vectors.md V-DEC-1 to V-DEC-9 and one word per family, under the
default map. The opcode numbers are R55's, which the spec marks as general knowledge
(notes/assumptions/3.md, UNVERIFIED). -/
def Obligations.SpecWordsDecode : Prop :=
  decode OpcodeMap.default 0x02010005 = .ok (.loadi 5) ∧
  decode OpcodeMap.default 0x0302000A = .ok (.store 10) ∧
  decode OpcodeMap.default 0x0100FFFF = .ok .halt ∧
  decode OpcodeMap.default 0x1200BEEF = .ok .out ∧
  decode OpcodeMap.default 0x00000000 = .error (.unknownOpcode 0) ∧
  decode OpcodeMap.default 0x8100ABCD = .error (.unknownOpcode 0x8100) ∧
  decode OpcodeMap.default 0xFFFFFFFF = .error (.unknownOpcode 0xFFFF) ∧
  decode OpcodeMap.default 0x02000005 = .error (.unknownOpcode 0x0200) ∧
  decode OpcodeMap.default 0x1001003B = .ok (.jgei 59) ∧
  decode OpcodeMap.default 0x07020003 = .ok (.div 3) ∧
  decode OpcodeMap.default 0x0902003C = .ok (.cmp 60)

/-- R53's two laws and its encoder, with the source's own shift and mask (R51): the fields
partition every word, and joining two fields gives a word with these fields. -/
def Obligations.FieldsPartitionWord : Prop :=
  (∀ w : Word, opcodeOf w = (w >>> 16).setWidth 16 ∧
    operandOf w = (w &&& 0xFFFF#32).setWidth 16 ∧
    ((opcodeOf w).setWidth 32 <<< 16) ||| (operandOf w).setWidth 32 = w) ∧
  (∀ o x : Half, joinFields o x = (o.setWidth 32 <<< 16) ||| x.setWidth 32 ∧
    opcodeOf (joinFields o x) = o ∧ operandOf (joinFields o x) = x)

/-- Decoding an encoded instruction gives it back, for every legal opcode map and every
operand (R53, R54, R56). -/
def Obligations.DecodeEncodeAgree : Prop :=
  ∀ (m : OpcodeMap) (i : Instr), m.wf = true → decode m (encode m i) = .ok i

/-- The other direction: a decoded word and the encoding of what it decodes to have the same
opcode, and are equal where the operand is used (R53, R54, R58). -/
def Obligations.DecodedWordEncodesBack : Prop :=
  ∀ (m : OpcodeMap) (w : Word) (i : Instr), decode m w = .ok i →
    opcodeOf (encode m i) = opcodeOf w ∧ (i.mnemonic.arity = 1 → encode m i = w)

/-- The mnemonic is the one `mnemonic_for` gives bits 31:16, whatever the operand bits, and an
unknown opcode is refused; the arity-0 mnemonics select one instruction for every operand
(R54, R58). -/
def Obligations.OperandBitsNeverSelect : Prop :=
  ∀ (m : OpcodeMap) (o x y : Half),
    (decode m (joinFields o x)).toOption.map Instr.mnemonic = m.mnemonicFor o ∧
    (m.mnemonicFor o = none → decode m (joinFields o x) = .error (.unknownOpcode o)) ∧
    (∀ k, m.mnemonicFor o = some k → k.arity = 0 →
      decode m (joinFields o x) = decode m (joinFields o y))

/-- Under a legal map, 65511 of the 65536 opcode values are unknown (R57). -/
def Obligations.UnknownOpcodesCounted : Prop :=
  ∀ m : OpcodeMap, m.wf = true →
    ((List.range 65536).countP fun n => (m.mnemonicFor (BitVec.ofNat 16 n)).isNone) = 65511

/-! ### The step (40_step_and_halt.md, 60_exceptions.md) -/

/-- A step that performs `i` latches the word, makes RS RUNNING, and is then `exec i` (R72,
R73, R75). -/
def Obligations.StepRunsDecodedInstruction : Prop :=
  ∀ (s : State) (i : Instr), s.Performs i →
    step s = exec i { s with rs := .running, ir := s.mem.read s.ip.toNat }

/-- Every step answers a next state: no host fault, no refusal (R76, R77). That a fault of the
spec and a `Step` at a stopped core (R165) answer a next state is the model's own reading
(notes/assumptions/7.md, DEDUCED), and so is it of a held IN (notes/assumptions/6.md,
DEDUCED). -/
def Obligations.EveryStepAnswersNext : Prop :=
  ∀ s : State, ∃ t, step s = .next t

/-- A `Step` at a HALTED or FAULTED core changes nothing (R80, R165). -/
def Obligations.StoppedCoreIgnoresStep : Prop :=
  ∀ s : State, s.rs = .halted ∨ s.rs = .faulted → step s = .next s

/-- A fetch out of range raises IP_OOB, and IR keeps its old value (R71, R181). -/
def Obligations.FetchOutOfRangeFaults : Prop :=
  ∀ s : State, s.rs = .ready ∨ s.rs = .running → s.cfg.memLen ≤ s.ip.toNat →
    step s = .next { s with rs := .faulted, fcause := .ipOob, finfo := s.ip }

/-- A fetched word whose opcode is not in the map raises UNKNOWN_OPCODE with the word, which
IR holds; nothing else changes (R184). -/
def Obligations.UnknownOpcodeFaults : Prop :=
  ∀ (s : State) (w : Word), s.rs = .ready ∨ s.rs = .running →
    s.ip.toNat < s.cfg.memLen → s.mem.read s.ip.toNat = w →
    s.cfg.opcodes.mnemonicFor (opcodeOf w) = none →
    step s = .next
      { s with ir := w, rs := .faulted, fcause := .unknownOpcode, finfo := w }

/-- An IN without an answer is no step: nothing changes, not even IR or RS; an input value or
the end of the stream lifts the hold (R150, R75, R44). -/
def Obligations.HeldInputChangesNothing : Prop :=
  ∀ s : State, s.rs = .ready ∨ s.rs = .running → s.ip.toNat < s.cfg.memLen →
    decode s.cfg.opcodes (s.mem.read s.ip.toNat) = .ok .inp →
    s.input = [] → s.inputEnded = false →
    step s = .next s ∧ stepOutcome s = .hold ∧
      (∀ x, (s.supply x).Performs .inp) ∧ s.endInput.Performs .inp

/-- The run-state machine (R81), for every move of the host and the environment. -/
def Obligations.RunStateTransitions : Prop :=
  ∀ (mv : Move) (s t : State), transact mv s = .next t →
    (mv = .reset → t.rs = .ready) ∧
    (mv ≠ .reset → mv ≠ .step → t.rs = s.rs) ∧
    (mv = .step → s.rs = .halted ∨ s.rs = .faulted → t.rs = s.rs) ∧
    (mv = .step → s.held = true → t.rs = s.rs) ∧
    (mv = .step → s.rs = .ready ∨ s.rs = .running → s.held = false →
      (t.rs = .halted ↔ s.Performs .halt) ∧
      (t.rs = .running → ∃ i, i ≠ .halt ∧ s.Performs i) ∧ t.rs ≠ .ready)

/-- The outcome of an enabled step is read from RS after it: continue, halt or fault, or a
hold when no step occurred (R77). -/
def Obligations.OutcomeReadFromRunState : Prop :=
  ∀ s t : State, s.rs = .ready ∨ s.rs = .running → step s = .next t →
    (s.held = true → stepOutcome s = .hold ∧ t = s) ∧
    (s.held = false →
      (t.rs = .running → stepOutcome s = .continued) ∧
      (t.rs = .halted → stepOutcome s = .halt) ∧
      (t.rs = .faulted → stepOutcome s = .fault t.fcause t.finfo) ∧ t.rs ≠ .ready)

/-- The pc after a step that did not fault: unchanged by HALT, the target of a taken jump,
else one more (R74). -/
def Obligations.TrailingIncrement : Prop :=
  ∀ (s t : State) (i : Instr), s.Performs i → step s = .next t → t.rs ≠ .faulted →
    (i = .halt → t.ip = s.ip) ∧
    (∀ x, i.takenTarget s.zf s.nf = some x → t.ip.toNat = x.toNat) ∧
    (i ≠ .halt → i.takenTarget s.zf s.nf = none → t.ip = s.ip + 1)

/-- IR after a step whose fetch succeeded: the word at the target of a taken jump that did not
fault, else the word fetched (R14). -/
def Obligations.InstructionRegisterAfterStep : Prop :=
  ∀ (s t : State) (i : Instr), s.Performs i → step s = .next t →
    (∀ x, i.takenTarget s.zf s.nf = some x → t.rs ≠ .faulted →
      t.ir = s.mem.read x.toNat) ∧
    (i.takenTarget s.zf s.nf = none ∨ t.rs = .faulted → t.ir = s.mem.read s.ip.toNat)

/-- Faults are precise: a step that faults changes RS, FCAUSE, FINFO, and IR, which holds the
fetched word unless the fetch itself failed (R186). -/
def Obligations.FaultsArePrecise : Prop :=
  ∀ s t : State, s.rs = .ready ∨ s.rs = .running → step s = .next t → t.rs = .faulted →
    t = { s with rs := .faulted, fcause := t.fcause, finfo := t.finfo, ir := t.ir } ∧
    (t.fcause = .ipOob → t.ir = s.ir) ∧
    (t.fcause ≠ .ipOob → t.ir = s.mem.read s.ip.toNat)

/-- Under the machine's invariant a fetch fails only at `IP = MEM_LEN` (R181). -/
def Obligations.FetchOverrunOnlyPastTheLastCell : Prop :=
  ∀ s t : State, s.Inv → s.rs = .ready ∨ s.rs = .running → step s = .next t →
    (t.fcause = .ipOob ∧ t.rs = .faulted ↔ s.ip.toNat = s.cfg.memLen)

/-- Memory is written by reset, by an accepted LoadWord and by a STORE whose address exists,
and by nothing else (R11). -/
def Obligations.OnlyStoreLoaderAndResetWriteMemory : Prop :=
  ∀ (mv : Move) (s t : State), transact mv s = .next t →
    (mv = .reset ∧ ∀ a : Nat, t.mem.read a = 0) ∨
    (∃ a w, mv = .loadWord a w ∧ s.rs = .ready ∧ a < s.cfg.memLen ∧ s.WroteCell t a w) ∨
    (∃ x, mv = .step ∧ s.Performs (.store x) ∧ x.toNat < s.cfg.memLen ∧
      s.WroteCell t x.toNat s.acc) ∨
    s.SameMemory t

/-- ZF and NF are written by CMP, CMPI and reset alone (R15). -/
def Obligations.OnlyComparisonsWriteFlags : Prop :=
  ∀ (mv : Move) (s t : State), transact mv s = .next t → mv ≠ .reset →
    (t.zf ≠ s.zf ∨ t.nf ≠ s.nf) →
    mv = .step ∧ ∃ x, s.Performs (.cmp x) ∨ s.Performs (.cmpi x)

/-- ACC is written by the instructions R12 lists and by reset alone. -/
def Obligations.OnlyListedInstructionsWriteAcc : Prop :=
  ∀ (mv : Move) (s t : State), transact mv s = .next t → mv ≠ .reset → t.acc ≠ s.acc →
    mv = .step ∧ ∃ i, s.Performs i ∧ i.mnemonic.writesAcc = true

/-- No move changes MEM_LEN or OPCODE_MAP (R56 d). -/
def Obligations.ConfigurationNeverChanges : Prop :=
  ∀ (mv : Move) (s t : State), transact mv s = .next t → t.cfg = s.cfg

/-- One character per OUT performed, the low byte of ACC, and none otherwise; `out_valid` and
`out_data` show it (R164). -/
def Obligations.OutputGrowsByOutAlone : Prop :=
  ∀ s t : State, step s = .next t →
    (s.Performs .out → t.output = s.output ++ [s.acc.setWidth 8] ∧
      s.outData = some (s.acc.setWidth 8)) ∧
    (¬ s.Performs .out → t.output = s.output ∧ s.outData = none)

/-- An input value is consumed by an IN performed, and by nothing else (R152, R163). -/
def Obligations.InputConsumedByInAlone : Prop :=
  ∀ s t : State, step s = .next t → t.inputEnded = s.inputEnded ∧
    (¬ s.Performs .inp → t.input = s.input) ∧
    (s.Performs .inp → ∀ x rest, s.input = x :: rest → t.input = rest ∧ t.acc = x)

/-! ### Invariants -/

/-- Every step keeps the machine's invariant: legal configuration, canonical memory within
range, IP at most MEM_LEN, flags never both set (R13, R15, R56, R123). -/
def Obligations.StepKeepsMachineInv : Prop :=
  ∀ s t : State, s.Inv → step s = .next t → t.Inv

/-- Every step keeps FCAUSE and FINFO in agreement with RS, IR and IP as R180 tabulates
(R17, R180 to R185, R188). -/
def Obligations.StepKeepsFaultRecord : Prop :=
  ∀ s t : State, s.FaultRecord → step s = .next t → t.FaultRecord

/-- Every step keeps: READY registers are reset registers; a HALTED core stands at the HALT
word, which IR holds (R16, R79, R171). -/
def Obligations.StepKeepsRunRecord : Prop :=
  ∀ s t : State, s.RunRecord → step s = .next t → t.RunRecord

/-- The three invariants hold after reset, for every legal configuration and for the default
one. -/
def Obligations.InvariantsHoldAtReset : Prop :=
  (∀ c : Config, c.wf = true →
    (State.resetWith c).Inv ∧ (State.resetWith c).FaultRecord ∧
    (State.resetWith c).RunRecord) ∧
  State.reset.Inv ∧ State.reset.FaultRecord ∧ State.reset.RunRecord

/-- Every other move of the host and the environment keeps the three invariants (R161, R162,
R167). -/
def Obligations.HostMovesKeepInvariants : Prop :=
  ∀ (mv : Move) (s t : State), mv ≠ .step → transact mv s = .next t →
    s.Inv → s.FaultRecord → s.RunRecord → t.Inv ∧ t.FaultRecord ∧ t.RunRecord

/-- After any moves from reset, program loading and input among them, the three invariants
hold. -/
def Obligations.ReachableStatesKeepInvariants : Prop :=
  ∀ (c : Config) (ms : List Move) (t : State), c.wf = true →
    runMoves ms (State.resetWith c) = .next t → t.Inv ∧ t.FaultRecord ∧ t.RunRecord

/-! ### HALT, loads and the store -/

/-- HALT sets RS and nothing else: no increment (R79). -/
def Obligations.HaltStopsInPlace : Prop :=
  ∀ s : State, exec .halt s = .next { s with rs := .halted }

/-- LOAD takes the low half of the cell, zero-extended, or raises ADDR_OOB (R90). -/
def Obligations.LoadTakesLowHalf : Prop :=
  ∀ (x : Half) (s : State),
    (x.toNat < s.cfg.memLen → ∃ v : Word, v.toNat = s.lowHalf x ∧
      exec (.load x) s = .next { s with acc := v, ip := s.ip + 1 }) ∧
    (s.cfg.memLen ≤ x.toNat → exec (.load x) s = .next
      { s with rs := .faulted, fcause := .addrOob, finfo := x.setWidth 32 })

/-- LOADI takes the operand, zero-extended (R91). -/
def Obligations.LoadiZeroExtends : Prop :=
  ∀ (x : Half) (s : State), ∃ v : Word, v.toNat = x.toNat ∧
    exec (.loadi x) s = .next { s with acc := v, ip := s.ip + 1 }

/-- STORE writes all 32 bits of ACC to one cell and no other, or raises ADDR_OOB and writes
none (R92). -/
def Obligations.StoreWritesOneWholeCell : Prop :=
  ∀ (x : Half) (s : State),
    (x.toNat < s.cfg.memLen → ∃ t, exec (.store x) s = .next t ∧
      s.WroteCell t x.toNat s.acc ∧ t = { s with mem := t.mem, ip := s.ip + 1 }) ∧
    (s.cfg.memLen ≤ x.toNat → exec (.store x) s = .next
      { s with rs := .faulted, fcause := .addrOob, finfo := x.setWidth 32 })

/-- A word stored comes back through LOAD as its low 16 bits only (R82, R90, R92). -/
def Obligations.StoredWordReadsBackLowHalf : Prop :=
  ∀ (x : Half) (s : State), x.toNat < s.cfg.memLen →
    ∃ t u, exec (.store x) s = .next t ∧ exec (.load x) t = .next u ∧
      u.acc.toNat = s.acc.toNat % 65536

/-- A STORE over its own cell leaves IR at the old word; a STORE over the next cell is what
the next step fetches (R40). -/
def Obligations.StoreSeenByNextFetch : Prop :=
  ∀ (s t : State) (x : Half), s.Performs (.store x) → x.toNat < s.cfg.memLen →
    step s = .next t → t.ir = s.mem.read s.ip.toNat ∧
      (t.ip.toNat = x.toNat → t.fetchWord = s.acc) ∧
      (s.ip.toNat = x.toNat → t.mem.read s.ip.toNat = s.acc)

/-! ### Arithmetic -/

/-- ADD and ADDI: ACC plus the value modulo 2^32; ADD raises ADDR_OOB on an address out of
range (R101, R102). -/
def Obligations.AddWrapsModuloTwo32 : Prop :=
  ∀ (x : Half) (s : State),
    (∃ r : Word, (r.toNat : Int) = (s.acc.toInt + x.toNat) % 2 ^ 32 ∧
      exec (.addi x) s = .next { s with acc := r, ip := s.ip + 1 }) ∧
    (x.toNat < s.cfg.memLen →
      ∃ r : Word, (r.toNat : Int) = (s.acc.toInt + s.lowHalf x) % 2 ^ 32 ∧
        exec (.add x) s = .next { s with acc := r, ip := s.ip + 1 }) ∧
    (s.cfg.memLen ≤ x.toNat → exec (.add x) s = .next
      { s with rs := .faulted, fcause := .addrOob, finfo := x.setWidth 32 })

/-- SUB and SUBI: ACC minus the value modulo 2^32 (R103, R104). -/
def Obligations.SubWrapsModuloTwo32 : Prop :=
  ∀ (x : Half) (s : State),
    (∃ r : Word, (r.toNat : Int) = (s.acc.toInt - x.toNat) % 2 ^ 32 ∧
      exec (.subi x) s = .next { s with acc := r, ip := s.ip + 1 }) ∧
    (x.toNat < s.cfg.memLen →
      ∃ r : Word, (r.toNat : Int) = (s.acc.toInt - s.lowHalf x) % 2 ^ 32 ∧
        exec (.sub x) s = .next { s with acc := r, ip := s.ip + 1 }) ∧
    (s.cfg.memLen ≤ x.toNat → exec (.sub x) s = .next
      { s with rs := .faulted, fcause := .addrOob, finfo := x.setWidth 32 })

/-- MUL and MULI: ACC times the value modulo 2^32 (R105, R106). -/
def Obligations.MulWrapsModuloTwo32 : Prop :=
  ∀ (x : Half) (s : State),
    (∃ r : Word, (r.toNat : Int) = (s.acc.toInt * x.toNat) % 2 ^ 32 ∧
      exec (.muli x) s = .next { s with acc := r, ip := s.ip + 1 }) ∧
    (x.toNat < s.cfg.memLen →
      ∃ r : Word, (r.toNat : Int) = (s.acc.toInt * s.lowHalf x) % 2 ^ 32 ∧
        exec (.mul x) s = .next { s with acc := r, ip := s.ip + 1 }) ∧
    (s.cfg.memLen ≤ x.toNat → exec (.mul x) s = .next
      { s with rs := .faulted, fcause := .addrOob, finfo := x.setWidth 32 })

/-- DIV and DIVI: the quotient of ACC and a value that is not zero, rounded toward zero: its
magnitude is the floor of the magnitudes' quotient, its sign that of ACC (R112). A zero value
raises DIV_ZERO with the address of the instruction, but an address out of range comes first
(R107, R108, R113, R114). -/
def Obligations.DivTruncatesOrFaults : Prop :=
  ∀ (x : Half) (s : State),
    (x ≠ 0 → ∃ r : Word, r.toInt.natAbs = s.acc.toInt.natAbs / x.toNat ∧
      (r.toInt ≠ 0 → r.toInt.sign = s.acc.toInt.sign) ∧
      exec (.divi x) s = .next { s with acc := r, ip := s.ip + 1 }) ∧
    (x = 0 → exec (.divi x) s = .next
      { s with rs := .faulted, fcause := .divZero, finfo := s.ip }) ∧
    (x.toNat < s.cfg.memLen → s.lowHalf x ≠ 0 →
      ∃ r : Word, r.toInt.natAbs = s.acc.toInt.natAbs / s.lowHalf x ∧
        (r.toInt ≠ 0 → r.toInt.sign = s.acc.toInt.sign) ∧
        exec (.div x) s = .next { s with acc := r, ip := s.ip + 1 }) ∧
    (x.toNat < s.cfg.memLen → s.lowHalf x = 0 → exec (.div x) s = .next
      { s with rs := .faulted, fcause := .divZero, finfo := s.ip }) ∧
    (s.cfg.memLen ≤ x.toNat → exec (.div x) s = .next
      { s with rs := .faulted, fcause := .addrOob, finfo := x.setWidth 32 })

/-- MOD and MODI: what division leaves, with the sign of ACC (R112); 0 for a zero value,
without a fault (R109, R110, R113). -/
def Obligations.ModPairsWithTruncation : Prop :=
  ∀ (x : Half) (s : State),
    (∃ r : Word,
      (x ≠ 0 → r.toInt = s.acc.toInt - x.toNat * Int.tdiv s.acc.toInt x.toNat ∧
        r.toInt.natAbs < x.toNat ∧ (r.toInt ≠ 0 → r.toInt.sign = s.acc.toInt.sign)) ∧
      (x = 0 → r = 0) ∧
      exec (.modi x) s = .next { s with acc := r, ip := s.ip + 1 }) ∧
    (x.toNat < s.cfg.memLen → ∃ r : Word,
      (s.lowHalf x ≠ 0 →
        r.toInt = s.acc.toInt - s.lowHalf x * Int.tdiv s.acc.toInt (s.lowHalf x) ∧
        r.toInt.natAbs < s.lowHalf x ∧ (r.toInt ≠ 0 → r.toInt.sign = s.acc.toInt.sign)) ∧
      (s.lowHalf x = 0 → r = 0) ∧
      exec (.mod x) s = .next { s with acc := r, ip := s.ip + 1 }) ∧
    (s.cfg.memLen ≤ x.toNat → exec (.mod x) s = .next
      { s with rs := .faulted, fcause := .addrOob, finfo := x.setWidth 32 })

/-- Only the low half of a cell reaches the ALU: two memories that agree there give a
memory-indirect value instruction the same result (R32, R82). -/
def Obligations.UpperHalfNeverReachesTheAlu : Prop :=
  ∀ (i : Instr) (s t : State) (m : Memory), i.mnemonic.mode = .indirectValue →
    (m.read i.operand.toNat).toNat % 65536 = s.lowHalf i.operand →
    exec i s = .next t → exec i { s with mem := m } = .next { t with mem := m }

/-- An instruction of arity 0 or with an immediate value does not depend on memory, beyond
its fetch (R38, R58). -/
def Obligations.ImmediateFormsIgnoreMemory : Prop :=
  ∀ (i : Instr) (s t : State) (m : Memory),
    i.mnemonic.mode = .none ∨ i.mnemonic.mode = .immediateValue →
    exec i s = .next t → exec i { s with mem := m } = .next { t with mem := m }

/-! ### Comparison -/

/-- CMP and CMPI write both flags from the wrapped 32-bit difference `d`: ZF is `d = 0`, NF
is bit 31 of `d`; CMP raises ADDR_OOB with the flags kept (R120, R121, R122). -/
def Obligations.CompareSetsFlagsFromDifference : Prop :=
  ∀ (x : Half) (s : State),
    (∃ d : Word, (d.toNat : Int) = (s.acc.toInt - x.toNat) % 2 ^ 32 ∧
      exec (.cmpi x) s = .next
        { s with zf := decide (d = 0), nf := decide (2 ^ 31 ≤ d.toNat), ip := s.ip + 1 }) ∧
    (x.toNat < s.cfg.memLen →
      ∃ d : Word, (d.toNat : Int) = (s.acc.toInt - s.lowHalf x) % 2 ^ 32 ∧
        exec (.cmp x) s = .next
          { s with zf := decide (d = 0), nf := decide (2 ^ 31 ≤ d.toNat), ip := s.ip + 1 }) ∧
    (s.cfg.memLen ≤ x.toNat → exec (.cmp x) s = .next
      { s with rs := .faulted, fcause := .addrOob, finfo := x.setWidth 32 })

/-- What the flags say of the order: ZF is equality; outside the overflow band NF is "less";
inside it the flags read "greater" (R122). -/
def Obligations.CompareReadsAsOrderOutsideBand : Prop :=
  ∀ (x : Half) (s t : State) (v : Nat),
    (exec (.cmpi x) s = .next t ∧ v = x.toNat) ∨
      (exec (.cmp x) s = .next t ∧ x.toNat < s.cfg.memLen ∧ v = s.lowHalf x) →
    (t.zf = true ↔ s.acc.toInt = v) ∧
    (-2 ^ 31 + (v : Int) ≤ s.acc.toInt → (t.nf = true ↔ s.acc.toInt < v)) ∧
    (s.acc.toInt < -2 ^ 31 + (v : Int) → t.zf = false ∧ t.nf = false)

/-- After any comparison the flags are not both set (R123). -/
def Obligations.ComparisonFlagsExclusive : Prop :=
  ∀ (x : Half) (s t : State),
    exec (.cmpi x) s = .next t ∨ (exec (.cmp x) s = .next t ∧ x.toNat < s.cfg.memLen) →
    (t.zf = false ∧ t.nf = false) ∨ (t.zf = true ∧ t.nf = false) ∨
      (t.zf = false ∧ t.nf = true)

/-! ### Control transfer -/

/-- JMPI: IP takes the target and IR the word there; a target out of range raises TARGET_OOB
with IP kept (R130, R132). -/
def Obligations.JmpiRedirectsAndRefreshes : Prop :=
  ∀ (x : Half) (s : State),
    (x.toNat < s.cfg.memLen → exec (.jmpi x) s = .next
      { s with ip := x.setWidth 32, ir := s.mem.read x.toNat }) ∧
    (s.cfg.memLen ≤ x.toNat → exec (.jmpi x) s = .next
      { s with rs := .faulted, fcause := .targetOob, finfo := x.setWidth 32 })

/-- Each conditional jump is JMPI when its condition holds, in range or not, and else only
advances the pc, whatever its operand (R131, R133 to R138). -/
def Obligations.ConditionalJumpsFollowFlags : Prop :=
  ∀ (x : Half) (s : State),
    exec (.jei x) s =
      (if s.zf = true then exec (.jmpi x) s else .next { s with ip := s.ip + 1 }) ∧
    exec (.jnei x) s =
      (if s.zf = false then exec (.jmpi x) s else .next { s with ip := s.ip + 1 }) ∧
    exec (.jli x) s =
      (if s.nf = true then exec (.jmpi x) s else .next { s with ip := s.ip + 1 }) ∧
    exec (.jlei x) s =
      (if s.zf = true ∨ s.nf = true then exec (.jmpi x) s
        else .next { s with ip := s.ip + 1 }) ∧
    exec (.jgi x) s =
      (if s.zf = false ∧ s.nf = false then exec (.jmpi x) s
        else .next { s with ip := s.ip + 1 }) ∧
    exec (.jgei x) s =
      (if s.nf = false then exec (.jmpi x) s else .next { s with ip := s.ip + 1 })

/-- Where a conditional jump completes: untaken, always; taken, when its target exists (R130,
R131, R133 to R138). -/
def Obligations.ConditionalJumpsComplete : Prop :=
  ∀ (i : Instr) (s : State), i.mnemonic.mode = .immediateTarget →
    (i.takenTarget s.zf s.nf = none → exec i s = .next { s with ip := s.ip + 1 }) ∧
    (∀ x, i.takenTarget s.zf s.nf = some x → x.toNat < s.cfg.memLen →
      exec i s = .next { s with ip := x.setWidth 32, ir := s.mem.read x.toNat }) ∧
    (∀ x, i.takenTarget s.zf s.nf = some x → s.cfg.memLen ≤ x.toNat →
      exec i s = .next
        { s with rs := .faulted, fcause := .targetOob, finfo := x.setWidth 32 })

/-- A JMPI to its own address leaves the running state exactly as it was, for any number of
steps (R132). -/
def Obligations.SelfJumpRunsForever : Prop :=
  ∀ (n : Nat) (s : State) (x : Half), s.rs = .running → s.Performs (.jmpi x) →
    x.toNat = s.ip.toNat → s.ir = s.mem.read s.ip.toNat →
    core.run n s = .next s

/-! ### Streams -/

/-- IN by the environment's answer: one whole 32-bit value, consumed; INPUT_EXHAUSTED with the
address of the instruction; or a hold, in which the whole step does not occur and nothing
changes (R150). The third clause, `exec` of an IN without an answer, is no rule of the spec but
the model's choice for a case no step reaches (notes/assumptions/12.md, DESIGN CHOICE). -/
def Obligations.InTakesOneValueOrFaults : Prop :=
  ∀ s : State,
    (∀ x, s.answer = .got x → exec .inp s =
      .next { s with acc := x, input := s.input.tail, ip := s.ip + 1 }) ∧
    (s.answer = .exhausted → exec .inp s = .next
      { s with rs := .faulted, fcause := .inputExhausted, finfo := s.ip }) ∧
    (s.answer = .notReady → exec .inp s = .next s) ∧
    (s.answer = .notReady → s.ip.toNat < s.cfg.memLen →
      decode s.cfg.opcodes (s.mem.read s.ip.toNat) = .ok .inp → step s = .next s)

/-- OUT appends bits 7:0 of ACC, as a number ACC modulo 256, to the output; ACC is not changed
(R151). -/
def Obligations.OutEmitsLowByte : Prop :=
  ∀ s : State, ∃ c : Byte, c.toNat = s.acc.toNat % 256 ∧
    exec .out s = .next { s with output := s.output ++ [c], ip := s.ip + 1 }

/-! ### Frames over all instructions -/

/-- An instruction other than STORE leaves every cell as it was; STORE changes only the cell
its operand names (R11, R92). -/
def Obligations.EveryOtherCellIsKept : Prop :=
  ∀ (i : Instr) (s t : State), exec i s = .next t →
    (i.mnemonic ≠ .store → s.SameMemory t) ∧
    (i.mnemonic = .store → ∀ a : Nat, a ≠ i.operand.toNat → t.mem.read a = s.mem.read a)

/-- What each instruction leaves unchanged when it does not fault, from the access matrix of
R20: ACC, the flags, IR, the fault record, the streams. -/
def Obligations.RegistersKeptByOthers : Prop :=
  ∀ (i : Instr) (s t : State), s.rs = .running → exec i s = .next t → t.rs ≠ .faulted →
    (i.mnemonic.writesAcc = false → t.acc = s.acc) ∧
    (i.mnemonic.writesFlags = false → t.zf = s.zf ∧ t.nf = s.nf) ∧
    (i.takenTarget s.zf s.nf = none → t.ir = s.ir) ∧
    (i ≠ .halt → t.rs = .running) ∧
    t.fcause = s.fcause ∧ t.finfo = s.finfo ∧ t.inputEnded = s.inputEnded ∧
    (i ≠ .inp → t.input = s.input) ∧ (i ≠ .out → t.output = s.output) ∧ t.cfg = s.cfg

/-! ### Reset, loading and the snapshot -/

/-- Every piece of the core's state after reset, for every configuration (R19); the default
memory length is 60 (R4). -/
def Obligations.ResetValues : Prop :=
  (∀ c : Config, (∀ a : Nat, (State.resetWith c).mem.read a = 0) ∧
    (State.resetWith c).acc = 0 ∧ (State.resetWith c).ip = 0 ∧ (State.resetWith c).ir = 0 ∧
    (State.resetWith c).zf = false ∧ (State.resetWith c).nf = false ∧
    (State.resetWith c).rs = .ready ∧ (State.resetWith c).fcause = .none ∧
    (State.resetWith c).finfo = 0) ∧
  State.reset = State.resetWith Config.default ∧ Config.default.memLen = 60

/-- `Reset` gives the reset state from any state, HALTED and FAULTED among them, and leaves
the streams alone (R161, R210). -/
def Obligations.HostResetFromAnyState : Prop :=
  ∀ s : State, ∃ t, transact .reset s = .next t ∧
    (∀ a : Nat, t.mem.read a = 0) ∧ t.acc = 0 ∧ t.ip = 0 ∧ t.ir = 0 ∧ t.zf = false ∧
    t.nf = false ∧ t.rs = .ready ∧ t.fcause = .none ∧ t.finfo = 0 ∧
    t.input = s.input ∧ t.inputEnded = s.inputEnded ∧ t.output = s.output ∧ t.cfg = s.cfg

/-- `LoadWord` writes one cell while READY and in range, and no register; else it changes
nothing (R162). -/
def Obligations.LoadWordOnlyWhileReady : Prop :=
  ∀ (s : State) (a : Nat) (w : Word),
    (s.rs = .ready → a < s.cfg.memLen → ∃ t, transact (.loadWord a w) s = .next t ∧
      s.WroteCell t a w ∧ t = { s with mem := t.mem }) ∧
    (s.rs ≠ .ready ∨ s.cfg.memLen ≤ a → transact (.loadWord a w) s = .next s)

/-- Booting an image that fits puts word `i` at address `i` and leaves 0 elsewhere, with IP 0
(R62, R162, R212). -/
def Obligations.ImageIsLaidOutFromZero : Prop :=
  ∀ (s : State) (image : List Word), s.cfg.fits image = true →
    (∀ a : Nat, (s.boot image).mem.read a = image.getD a 0) ∧
    (s.boot image).ip = 0 ∧ (s.boot image).rs = .ready

/-- A program that is one HALT word stops after one step with ACC, IP and the flags at their
reset values and the HALT word in IR (R83). -/
def Obligations.HaltOnlyProgramStops : Prop :=
  ∀ (s : State) (w : Word), 1 ≤ s.cfg.memLen → decode s.cfg.opcodes w = .ok .halt →
    ∃ t, step (s.boot [w]) = .next t ∧ t.rs = .halted ∧ t.acc = 0 ∧ t.ip = 0 ∧
      t.zf = false ∧ t.nf = false ∧ t.ir = w

/-- The snapshot shows the registers and all MEM_LEN cells, and taking it changes nothing
(R168). -/
def Obligations.SnapshotShowsEveryCell : Prop :=
  ∀ s : State, transact .snapshot s = .next s ∧
    s.snapshot.memory.length = s.cfg.memLen ∧
    (∀ a : Nat, a < s.cfg.memLen → s.snapshot.memory[a]? = some (s.mem.read a)) ∧
    s.snapshot.acc = s.acc ∧ s.snapshot.ip = s.ip ∧ s.snapshot.ir = s.ir ∧
    s.snapshot.zf = s.zf ∧ s.snapshot.nf = s.nf ∧ s.snapshot.rs = s.rs.code ∧
    s.snapshot.fcause = s.fcause.code ∧ s.snapshot.finfo = s.finfo
end

