-- ==== Sys2Proof/Laws/Decode.lean ====
section
/-! SUPPORT. The fields of a word, and the opcode lookup under a legal map (30_encoding.md
rules R51 to R57). -/

namespace Sys2Proof

theorem opcodeOf_toNat (w : Word) : (opcodeOf w).toNat = w.toNat / 65536 := by
  have := w.isLt
  simp only [opcodeOf, BitVec.extractLsb'_toNat, Nat.shiftRight_eq_div_pow]
  omega

theorem operandOf_toNat (w : Word) : (operandOf w).toNat = w.toNat % 65536 := by
  simp [operandOf, BitVec.extractLsb'_toNat]

theorem joinFields_toNat (o x : Half) :
    (joinFields o x).toNat = o.toNat * 65536 + x.toNat := by
  have hx := x.isLt
  simp only [joinFields, BitVec.toNat_append, Nat.shiftLeft_eq]
  rw [← Nat.shiftLeft_eq, ← Nat.shiftLeft_add_eq_or_of_lt hx, Nat.shiftLeft_eq]

@[simp] theorem opcodeOf_joinFields (o x : Half) : opcodeOf (joinFields o x) = o := by
  have := x.isLt
  apply BitVec.eq_of_toNat_eq
  rw [opcodeOf_toNat, joinFields_toNat]
  omega

@[simp] theorem operandOf_joinFields (o x : Half) : operandOf (joinFields o x) = x := by
  have := x.isLt
  apply BitVec.eq_of_toNat_eq
  rw [operandOf_toNat, joinFields_toNat]
  omega

theorem Mnemonic.mem_all (k : Mnemonic) : k ∈ Mnemonic.all := by
  cases k <;> decide

/-- Under a legal map the opcode determines the mnemonic (R56 b). -/
theorem OpcodeMap.opcode_injective {m : OpcodeMap} (h : m.wf = true) {j k : Mnemonic}
    (e : m.opcode j = m.opcode k) : j = k :=
  List.inj_on_of_nodup_map (of_decide_eq_true h) j.mem_all k.mem_all e

/-- What the lookup finds has the opcode looked up. -/
theorem OpcodeMap.opcode_of_mnemonicFor {m : OpcodeMap} {o : Half} {k : Mnemonic}
    (h : m.mnemonicFor o = some k) : m.opcode k = o := by
  have := List.find?_some h
  simpa using this

/-- Under a legal map the lookup finds the mnemonic with the opcode (R53, R56). -/
theorem OpcodeMap.mnemonicFor_eq_some {m : OpcodeMap} (h : m.wf = true) {o : Half}
    {k : Mnemonic} : m.mnemonicFor o = some k ↔ m.opcode k = o := by
  refine ⟨opcode_of_mnemonicFor, fun e => ?_⟩
  cases hf : m.mnemonicFor o with
  | none =>
    have := List.find?_eq_none.mp hf k k.mem_all
    simp [e] at this
  | some j => rw [opcode_injective h ((opcode_of_mnemonicFor hf).trans e.symm)]

/-- A decoded word: its mnemonic is the one looked up, with the operand field (R54). -/
theorem decode_eq_ok {m : OpcodeMap} {w : Word} {i : Instr} :
    decode m w = .ok i ↔
      ∃ k, m.mnemonicFor (opcodeOf w) = some k ∧ i = k.toInstr (operandOf w) := by
  unfold decode
  cases h : m.mnemonicFor (opcodeOf w) <;> simp [eq_comm]

/-- A rejected word: its opcode is not in the map (R57). -/
theorem decode_eq_error {m : OpcodeMap} {w : Word} {r : Reject} :
    decode m w = .error r ↔
      m.mnemonicFor (opcodeOf w) = none ∧ r = .unknownOpcode (opcodeOf w) := by
  unfold decode
  cases h : m.mnemonicFor (opcodeOf w) <;> simp [eq_comm]

@[simp] theorem Mnemonic.mnemonic_toInstr (k : Mnemonic) (x : Half) :
    (k.toInstr x).mnemonic = k := by
  cases k <;> rfl

end Sys2Proof
end

