-- ==== Sys2Proof/Laws/State.lean ====
section
/-! SUPPORT. For each update of the state, what each field of the result is. -/

namespace Sys2Proof.Machine.State

variable (s : State)

/-! Latching a word (R72). -/

@[simp] theorem latch_mem (w : Word) : (s.latch w).mem = s.mem := rfl
@[simp] theorem latch_acc (w : Word) : (s.latch w).acc = s.acc := rfl
@[simp] theorem latch_ip (w : Word) : (s.latch w).ip = s.ip := rfl
@[simp] theorem latch_ir (w : Word) : (s.latch w).ir = w := rfl
@[simp] theorem latch_zf (w : Word) : (s.latch w).zf = s.zf := rfl
@[simp] theorem latch_nf (w : Word) : (s.latch w).nf = s.nf := rfl
@[simp] theorem latch_rs (w : Word) : (s.latch w).rs = .running := rfl
@[simp] theorem latch_fcause (w : Word) : (s.latch w).fcause = s.fcause := rfl
@[simp] theorem latch_finfo (w : Word) : (s.latch w).finfo = s.finfo := rfl
@[simp] theorem latch_input (w : Word) : (s.latch w).input = s.input := rfl
@[simp] theorem latch_inputEnded (w : Word) : (s.latch w).inputEnded = s.inputEnded := rfl
@[simp] theorem latch_output (w : Word) : (s.latch w).output = s.output := rfl
@[simp] theorem latch_cfg (w : Word) : (s.latch w).cfg = s.cfg := rfl

/-! Writing ACC. -/

@[simp] theorem setAcc_mem (v : Word) : (s.setAcc v).mem = s.mem := rfl
@[simp] theorem setAcc_acc (v : Word) : (s.setAcc v).acc = v := rfl
@[simp] theorem setAcc_ip (v : Word) : (s.setAcc v).ip = s.ip := rfl
@[simp] theorem setAcc_ir (v : Word) : (s.setAcc v).ir = s.ir := rfl
@[simp] theorem setAcc_zf (v : Word) : (s.setAcc v).zf = s.zf := rfl
@[simp] theorem setAcc_nf (v : Word) : (s.setAcc v).nf = s.nf := rfl
@[simp] theorem setAcc_rs (v : Word) : (s.setAcc v).rs = s.rs := rfl
@[simp] theorem setAcc_fcause (v : Word) : (s.setAcc v).fcause = s.fcause := rfl
@[simp] theorem setAcc_finfo (v : Word) : (s.setAcc v).finfo = s.finfo := rfl
@[simp] theorem setAcc_input (v : Word) : (s.setAcc v).input = s.input := rfl
@[simp] theorem setAcc_inputEnded (v : Word) : (s.setAcc v).inputEnded = s.inputEnded := rfl
@[simp] theorem setAcc_output (v : Word) : (s.setAcc v).output = s.output := rfl
@[simp] theorem setAcc_cfg (v : Word) : (s.setAcc v).cfg = s.cfg := rfl

/-! Writing the flags. -/

@[simp] theorem setFlags_mem (f : Bool × Bool) : (s.setFlags f).mem = s.mem := rfl
@[simp] theorem setFlags_acc (f : Bool × Bool) : (s.setFlags f).acc = s.acc := rfl
@[simp] theorem setFlags_ip (f : Bool × Bool) : (s.setFlags f).ip = s.ip := rfl
@[simp] theorem setFlags_ir (f : Bool × Bool) : (s.setFlags f).ir = s.ir := rfl
@[simp] theorem setFlags_zf (f : Bool × Bool) : (s.setFlags f).zf = f.1 := rfl
@[simp] theorem setFlags_nf (f : Bool × Bool) : (s.setFlags f).nf = f.2 := rfl
@[simp] theorem setFlags_rs (f : Bool × Bool) : (s.setFlags f).rs = s.rs := rfl
@[simp] theorem setFlags_fcause (f : Bool × Bool) : (s.setFlags f).fcause = s.fcause := rfl
@[simp] theorem setFlags_finfo (f : Bool × Bool) : (s.setFlags f).finfo = s.finfo := rfl
@[simp] theorem setFlags_input (f : Bool × Bool) : (s.setFlags f).input = s.input := rfl
@[simp] theorem setFlags_inputEnded (f : Bool × Bool) : (s.setFlags f).inputEnded = s.inputEnded := rfl
@[simp] theorem setFlags_output (f : Bool × Bool) : (s.setFlags f).output = s.output := rfl
@[simp] theorem setFlags_cfg (f : Bool × Bool) : (s.setFlags f).cfg = s.cfg := rfl

/-! The trailing increment (R74). -/

@[simp] theorem advance_mem : (s.advance).mem = s.mem := rfl
@[simp] theorem advance_acc : (s.advance).acc = s.acc := rfl
@[simp] theorem advance_ip : (s.advance).ip = s.ip + 1 := rfl
@[simp] theorem advance_ir : (s.advance).ir = s.ir := rfl
@[simp] theorem advance_zf : (s.advance).zf = s.zf := rfl
@[simp] theorem advance_nf : (s.advance).nf = s.nf := rfl
@[simp] theorem advance_rs : (s.advance).rs = s.rs := rfl
@[simp] theorem advance_fcause : (s.advance).fcause = s.fcause := rfl
@[simp] theorem advance_finfo : (s.advance).finfo = s.finfo := rfl
@[simp] theorem advance_input : (s.advance).input = s.input := rfl
@[simp] theorem advance_inputEnded : (s.advance).inputEnded = s.inputEnded := rfl
@[simp] theorem advance_output : (s.advance).output = s.output := rfl
@[simp] theorem advance_cfg : (s.advance).cfg = s.cfg := rfl

/-! Writing ACC and advancing. -/

@[simp] theorem finish_mem (r : Word) : (s.finish r).mem = s.mem := rfl
@[simp] theorem finish_acc (r : Word) : (s.finish r).acc = r := rfl
@[simp] theorem finish_ip (r : Word) : (s.finish r).ip = s.ip + 1 := rfl
@[simp] theorem finish_ir (r : Word) : (s.finish r).ir = s.ir := rfl
@[simp] theorem finish_zf (r : Word) : (s.finish r).zf = s.zf := rfl
@[simp] theorem finish_nf (r : Word) : (s.finish r).nf = s.nf := rfl
@[simp] theorem finish_rs (r : Word) : (s.finish r).rs = s.rs := rfl
@[simp] theorem finish_fcause (r : Word) : (s.finish r).fcause = s.fcause := rfl
@[simp] theorem finish_finfo (r : Word) : (s.finish r).finfo = s.finfo := rfl
@[simp] theorem finish_input (r : Word) : (s.finish r).input = s.input := rfl
@[simp] theorem finish_inputEnded (r : Word) : (s.finish r).inputEnded = s.inputEnded := rfl
@[simp] theorem finish_output (r : Word) : (s.finish r).output = s.output := rfl
@[simp] theorem finish_cfg (r : Word) : (s.finish r).cfg = s.cfg := rfl

/-! Writing a cell. -/

@[simp] theorem writeCell_mem (a : Nat) (v : Word) : (s.writeCell a v).mem = s.mem.write a v := rfl
@[simp] theorem writeCell_acc (a : Nat) (v : Word) : (s.writeCell a v).acc = s.acc := rfl
@[simp] theorem writeCell_ip (a : Nat) (v : Word) : (s.writeCell a v).ip = s.ip := rfl
@[simp] theorem writeCell_ir (a : Nat) (v : Word) : (s.writeCell a v).ir = s.ir := rfl
@[simp] theorem writeCell_zf (a : Nat) (v : Word) : (s.writeCell a v).zf = s.zf := rfl
@[simp] theorem writeCell_nf (a : Nat) (v : Word) : (s.writeCell a v).nf = s.nf := rfl
@[simp] theorem writeCell_rs (a : Nat) (v : Word) : (s.writeCell a v).rs = s.rs := rfl
@[simp] theorem writeCell_fcause (a : Nat) (v : Word) : (s.writeCell a v).fcause = s.fcause := rfl
@[simp] theorem writeCell_finfo (a : Nat) (v : Word) : (s.writeCell a v).finfo = s.finfo := rfl
@[simp] theorem writeCell_input (a : Nat) (v : Word) : (s.writeCell a v).input = s.input := rfl
@[simp] theorem writeCell_inputEnded (a : Nat) (v : Word) : (s.writeCell a v).inputEnded = s.inputEnded := rfl
@[simp] theorem writeCell_output (a : Nat) (v : Word) : (s.writeCell a v).output = s.output := rfl
@[simp] theorem writeCell_cfg (a : Nat) (v : Word) : (s.writeCell a v).cfg = s.cfg := rfl

/-! HALT's write (R79). -/

@[simp] theorem halt_mem : (s.halt).mem = s.mem := rfl
@[simp] theorem halt_acc : (s.halt).acc = s.acc := rfl
@[simp] theorem halt_ip : (s.halt).ip = s.ip := rfl
@[simp] theorem halt_ir : (s.halt).ir = s.ir := rfl
@[simp] theorem halt_zf : (s.halt).zf = s.zf := rfl
@[simp] theorem halt_nf : (s.halt).nf = s.nf := rfl
@[simp] theorem halt_rs : (s.halt).rs = .halted := rfl
@[simp] theorem halt_fcause : (s.halt).fcause = s.fcause := rfl
@[simp] theorem halt_finfo : (s.halt).finfo = s.finfo := rfl
@[simp] theorem halt_input : (s.halt).input = s.input := rfl
@[simp] theorem halt_inputEnded : (s.halt).inputEnded = s.inputEnded := rfl
@[simp] theorem halt_output : (s.halt).output = s.output := rfl
@[simp] theorem halt_cfg : (s.halt).cfg = s.cfg := rfl

/-! A taken jump's writes (R130). -/

@[simp] theorem redirect_mem (x : Half) : (s.redirect x).mem = s.mem := rfl
@[simp] theorem redirect_acc (x : Half) : (s.redirect x).acc = s.acc := rfl
@[simp] theorem redirect_ip (x : Half) : (s.redirect x).ip = x.setWidth 32 := rfl
@[simp] theorem redirect_ir (x : Half) : (s.redirect x).ir = s.mem.read x.toNat := rfl
@[simp] theorem redirect_zf (x : Half) : (s.redirect x).zf = s.zf := rfl
@[simp] theorem redirect_nf (x : Half) : (s.redirect x).nf = s.nf := rfl
@[simp] theorem redirect_rs (x : Half) : (s.redirect x).rs = s.rs := rfl
@[simp] theorem redirect_fcause (x : Half) : (s.redirect x).fcause = s.fcause := rfl
@[simp] theorem redirect_finfo (x : Half) : (s.redirect x).finfo = s.finfo := rfl
@[simp] theorem redirect_input (x : Half) : (s.redirect x).input = s.input := rfl
@[simp] theorem redirect_inputEnded (x : Half) : (s.redirect x).inputEnded = s.inputEnded := rfl
@[simp] theorem redirect_output (x : Half) : (s.redirect x).output = s.output := rfl
@[simp] theorem redirect_cfg (x : Half) : (s.redirect x).cfg = s.cfg := rfl

/-! Fault entry (R186). -/

@[simp] theorem raise_mem (c : FaultCause) (n : Word) : (s.raise c n).mem = s.mem := rfl
@[simp] theorem raise_acc (c : FaultCause) (n : Word) : (s.raise c n).acc = s.acc := rfl
@[simp] theorem raise_ip (c : FaultCause) (n : Word) : (s.raise c n).ip = s.ip := rfl
@[simp] theorem raise_ir (c : FaultCause) (n : Word) : (s.raise c n).ir = s.ir := rfl
@[simp] theorem raise_zf (c : FaultCause) (n : Word) : (s.raise c n).zf = s.zf := rfl
@[simp] theorem raise_nf (c : FaultCause) (n : Word) : (s.raise c n).nf = s.nf := rfl
@[simp] theorem raise_rs (c : FaultCause) (n : Word) : (s.raise c n).rs = .faulted := rfl
@[simp] theorem raise_fcause (c : FaultCause) (n : Word) : (s.raise c n).fcause = c := rfl
@[simp] theorem raise_finfo (c : FaultCause) (n : Word) : (s.raise c n).finfo = n := rfl
@[simp] theorem raise_input (c : FaultCause) (n : Word) : (s.raise c n).input = s.input := rfl
@[simp] theorem raise_inputEnded (c : FaultCause) (n : Word) : (s.raise c n).inputEnded = s.inputEnded := rfl
@[simp] theorem raise_output (c : FaultCause) (n : Word) : (s.raise c n).output = s.output := rfl
@[simp] theorem raise_cfg (c : FaultCause) (n : Word) : (s.raise c n).cfg = s.cfg := rfl

/-! Consuming an input value. -/

@[simp] theorem takeInput_mem : (s.takeInput).mem = s.mem := rfl
@[simp] theorem takeInput_acc : (s.takeInput).acc = s.acc := rfl
@[simp] theorem takeInput_ip : (s.takeInput).ip = s.ip := rfl
@[simp] theorem takeInput_ir : (s.takeInput).ir = s.ir := rfl
@[simp] theorem takeInput_zf : (s.takeInput).zf = s.zf := rfl
@[simp] theorem takeInput_nf : (s.takeInput).nf = s.nf := rfl
@[simp] theorem takeInput_rs : (s.takeInput).rs = s.rs := rfl
@[simp] theorem takeInput_fcause : (s.takeInput).fcause = s.fcause := rfl
@[simp] theorem takeInput_finfo : (s.takeInput).finfo = s.finfo := rfl
@[simp] theorem takeInput_input : (s.takeInput).input = s.input.tail := rfl
@[simp] theorem takeInput_inputEnded : (s.takeInput).inputEnded = s.inputEnded := rfl
@[simp] theorem takeInput_output : (s.takeInput).output = s.output := rfl
@[simp] theorem takeInput_cfg : (s.takeInput).cfg = s.cfg := rfl

/-! Emitting a character. -/

@[simp] theorem emit_mem (c : Byte) : (s.emit c).mem = s.mem := rfl
@[simp] theorem emit_acc (c : Byte) : (s.emit c).acc = s.acc := rfl
@[simp] theorem emit_ip (c : Byte) : (s.emit c).ip = s.ip := rfl
@[simp] theorem emit_ir (c : Byte) : (s.emit c).ir = s.ir := rfl
@[simp] theorem emit_zf (c : Byte) : (s.emit c).zf = s.zf := rfl
@[simp] theorem emit_nf (c : Byte) : (s.emit c).nf = s.nf := rfl
@[simp] theorem emit_rs (c : Byte) : (s.emit c).rs = s.rs := rfl
@[simp] theorem emit_fcause (c : Byte) : (s.emit c).fcause = s.fcause := rfl
@[simp] theorem emit_finfo (c : Byte) : (s.emit c).finfo = s.finfo := rfl
@[simp] theorem emit_input (c : Byte) : (s.emit c).input = s.input := rfl
@[simp] theorem emit_inputEnded (c : Byte) : (s.emit c).inputEnded = s.inputEnded := rfl
@[simp] theorem emit_output (c : Byte) : (s.emit c).output = s.output ++ [c] := rfl
@[simp] theorem emit_cfg (c : Byte) : (s.emit c).cfg = s.cfg := rfl

end Sys2Proof.Machine.State
end

