-- ==== Sys2Proof/Laws/Operands.lean ====
section
/-! SUPPORT. What each operand form, the jump, the division and the input answer can do, said
once. -/

namespace Sys2Proof.Machine

variable (s : State) (opd : Half)

theorem zext32_toNat : (zext32 opd).toNat = opd.toNat := by
  have := opd.isLt
  simp only [zext32, BitVec.toNat_setWidth]
  omega

theorem signed_zext32 : signed (zext32 opd) = opd.toNat := by
  have := opd.isLt
  rw [signed, BitVec.toInt_eq_toNat_of_lt, zext32_toNat]
  rw [zext32_toNat]
  omega

theorem low16_toNat (w : Word) : (low16 w).toNat = w.toNat % 65536 := by
  rw [low16, zext32_toNat, operandOf_toNat]

theorem signed_low16 (w : Word) : signed (low16 w) = (w.toNat % 65536 : Nat) := by
  rw [low16, signed_zext32, operandOf_toNat]

theorem wrap32_toNat (n : Int) : ((wrap32 n).toNat : Int) = n % 2 ^ 32 := by
  simp only [wrap32, BitVec.toNat_ofInt]
  omega

/-- A data access: the cell exists and the step goes on, or ADDR_OOB (R31, R182). -/
theorem withAddress_cases (k : Nat → State) :
    (opd.toNat < s.cfg.memLen ∧ s.withAddress opd k = k opd.toNat) ∨
    (s.cfg.memLen ≤ opd.toNat ∧
      s.withAddress opd k = s.raise .addrOob (zext32 opd)) := by
  unfold State.withAddress
  by_cases h : opd.toNat < s.cfg.memLen
  · exact .inl ⟨h, if_pos h⟩
  · exact .inr ⟨Nat.le_of_not_lt h, if_neg h⟩

/-- A memory-indirect value: the low half of the cell, or ADDR_OOB (R82). -/
theorem withIndirect_cases (k : Word → State) :
    (opd.toNat < s.cfg.memLen ∧
      s.withIndirect opd k = k (low16 (s.mem.read opd.toNat))) ∨
    (s.cfg.memLen ≤ opd.toNat ∧
      s.withIndirect opd k = s.raise .addrOob (zext32 opd)) :=
  withAddress_cases s opd _

/-- A taken jump: redirect and refresh, or TARGET_OOB (R130). -/
theorem jump_cases :
    (opd.toNat < s.cfg.memLen ∧ s.jump opd = s.redirect opd) ∨
    (s.cfg.memLen ≤ opd.toNat ∧ s.jump opd = s.raise .targetOob (zext32 opd)) := by
  unfold State.jump
  by_cases h : opd.toNat < s.cfg.memLen
  · exact .inl ⟨h, if_pos h⟩
  · exact .inr ⟨Nat.le_of_not_lt h, if_neg h⟩

/-- A conditional jump: untaken, taken, or TARGET_OOB (R130, R131). -/
theorem jumpIf_cases (c : Bool) :
    (c = false ∧ s.jumpIf c opd = s.advance) ∨
    (c = true ∧ opd.toNat < s.cfg.memLen ∧ s.jumpIf c opd = s.redirect opd) ∨
    (c = true ∧ s.cfg.memLen ≤ opd.toNat ∧
      s.jumpIf c opd = s.raise .targetOob (zext32 opd)) := by
  cases c with
  | false => exact .inl ⟨rfl, rfl⟩
  | true =>
    rcases jump_cases s opd with ⟨h, e⟩ | ⟨h, e⟩
    · exact .inr (.inl ⟨rfl, h, e⟩)
    · exact .inr (.inr ⟨rfl, h, e⟩)

/-- Division: DIV_ZERO, or the quotient (R113). -/
theorem divide_cases (v : Word) :
    (v = 0 ∧ s.divide v = s.raise .divZero s.ip) ∨
    (v ≠ 0 ∧ s.divide v = s.finish (aluDiv s.acc v)) := by
  unfold State.divide
  by_cases h : v = 0
  · exact .inl ⟨h, if_pos h⟩
  · exact .inr ⟨h, if_neg h⟩

/-- The three answers to IN (R152). -/
theorem answer_cases :
    (∃ x rest, s.input = x :: rest ∧ s.answer = .got x) ∨
    (s.input = [] ∧ s.inputEnded = true ∧ s.answer = .exhausted) ∨
    (s.input = [] ∧ s.inputEnded = false ∧ s.answer = .notReady) := by
  unfold State.answer
  cases hi : s.input with
  | cons x rest => exact .inl ⟨x, rest, rfl, rfl⟩
  | nil => cases he : s.inputEnded <;> simp

end Sys2Proof.Machine
end

