-- ==== Sys2Proof/Laws/Step.lean ====
section
/-! SUPPORT. What the front of a step can come to, said once. -/

namespace Sys2Proof.Machine

/-- The front of a step (R70 to R73, R75): a stopped core; a fetch out of range; an unknown
opcode; a held IN; or an instruction, with its word latched. -/
theorem beginStep_cases (s : State) :
    (s.enabled = false ∧ beginStep s = .ended s) ∨
    (s.enabled = true ∧ s.cfg.memLen ≤ s.ip.toNat ∧
      beginStep s = .ended (s.raise .ipOob s.ip)) ∨
    (s.enabled = true ∧ s.ip.toNat < s.cfg.memLen ∧
      (∃ r, decode s.cfg.opcodes s.fetchWord = .error r) ∧
      beginStep s = .ended ((s.latch s.fetchWord).raise .unknownOpcode s.fetchWord)) ∨
    (s.enabled = true ∧ s.ip.toNat < s.cfg.memLen ∧
      decode s.cfg.opcodes s.fetchWord = .ok .inp ∧ s.answer = .notReady ∧
      beginStep s = .ended s) ∨
    (∃ i, s.enabled = true ∧ s.ip.toNat < s.cfg.memLen ∧
      decode s.cfg.opcodes s.fetchWord = .ok i ∧ s.holds i = false ∧
      beginStep s = .run i (s.latch s.fetchWord)) := by
  unfold beginStep
  by_cases he : s.enabled = true
  · by_cases hp : s.ip.toNat < s.cfg.memLen
    · cases hd : decode s.cfg.opcodes s.fetchWord with
      | error r => simp [he, hp]
      | ok i =>
        by_cases hh : s.holds i = true
        · have : i = .inp ∧ s.answer = .notReady := by
            simpa [State.holds] using hh
          simp [he, hp, this.1, this.2]
        · simp [he, hp, hh]
    · simp [he, hp, Nat.le_of_not_lt hp]
  · simp [he]

/-- A step whose front is over answers with that state. -/
theorem step_of_ended {s t : State} (h : beginStep s = .ended t) : step s = .next t := by
  simp [step, h]

/-- A step whose front goes on answers as the instruction does. -/
theorem step_of_run {s t : State} {i : Instr} (h : beginStep s = .run i t) :
    step s = exec i t := by
  simp [step, h]

end Sys2Proof.Machine
end

