-- ==== Sys2Proof/Laws/Exec.lean ====
section
/-! SUPPORT. What an instruction can do to the state, said once for all 25: every statement
about what an instruction changes follows from these cases. -/

namespace Sys2Proof.Machine

/-- The shapes the result of an instruction can have: `Effect i s t` says that `i` on `s`
comes to `t`, with what `i` is and under which conditions. -/
inductive Effect : Instr → State → State → Prop where
  /-- HALT (R79). -/
  | halt (s : State) : Effect .halt s s.halt
  /-- LOAD, LOADI and the arithmetic: ACC and the pc (R90, R91, R100). -/
  | acc (i : Instr) (s : State) (v : Word)
      (hm : i.mnemonic.writesAcc = true) (hi : i.mnemonic ≠ .inp) : Effect i s (s.finish v)
  /-- STORE (R92). -/
  | store (x : Half) (s : State) (h : x.toNat < s.cfg.memLen) :
      Effect (.store x) s (s.writeCell x.toNat s.acc).advance
  /-- CMP, CMPI (R120, R121). -/
  | compare (i : Instr) (s : State) (v : Word) (hm : i.mnemonic.writesFlags = true) :
      Effect i s (s.setFlags (compareFlags s.acc v)).advance
  /-- A taken jump (R130). -/
  | taken (i : Instr) (s : State) (x : Half) (ht : i.takenTarget s.zf s.nf = some x)
      (h : x.toNat < s.cfg.memLen) : Effect i s (s.redirect x)
  /-- An untaken jump (R131). -/
  | untaken (i : Instr) (s : State) (hm : i.mnemonic.mode = .immediateTarget)
      (ht : i.takenTarget s.zf s.nf = none) : Effect i s s.advance
  /-- IN with a value (R150). -/
  | got (s : State) (x : Word) (rest : List Word) (h : s.input = x :: rest) :
      Effect .inp s (s.takeInput.setAcc x).advance
  /-- IN without an answer (R150). -/
  | hold (s : State) (h : s.answer = .notReady) : Effect .inp s s
  /-- OUT (R151). -/
  | out (s : State) : Effect .out s (s.emit s.outCode).advance
  /-- A data address out of range (R182). -/
  | addrOob (i : Instr) (s : State) (h : s.cfg.memLen ≤ i.operand.toNat)
      (hm : i.mnemonic.mode = .indirectValue ∨ i.mnemonic.mode = .indirectAddress) :
      Effect i s (s.raise .addrOob (zext32 i.operand))
  /-- A jump target out of range (R183). -/
  | targetOob (i : Instr) (s : State) (h : s.cfg.memLen ≤ i.operand.toNat)
      (ht : i.takenTarget s.zf s.nf = some i.operand) :
      Effect i s (s.raise .targetOob (zext32 i.operand))
  /-- A zero divisor (R185). -/
  | divZero (i : Instr) (s : State) (hm : i.mnemonic = .div ∨ i.mnemonic = .divi) :
      Effect i s (s.raise .divZero s.ip)
  /-- IN on an ended stream (R188). -/
  | exhausted (s : State) (hi : s.input = []) (he : s.inputEnded = true) :
      Effect .inp s (s.raise .inputExhausted s.ip)

/-- A value instruction whose memory-indirect form goes on to `s.finish`. -/
theorem Effect.of_withIndirect {i : Instr} {s : State} {k : Word → State}
    (hm : i.mnemonic.mode = .indirectValue) (hk : ∀ v, Effect i s (k v)) :
    Effect i s (s.withIndirect i.operand k) := by
  rcases withIndirect_cases s i.operand k with ⟨_, e⟩ | ⟨h, e⟩
  · rw [e]; exact hk _
  · rw [e]; exact .addrOob i s h (.inl hm)

theorem Effect.of_divide {i : Instr} {s : State} (v : Word)
    (hm : i.mnemonic = .div ∨ i.mnemonic = .divi) : Effect i s (s.divide v) := by
  rcases divide_cases s v with ⟨_, e⟩ | ⟨_, e⟩
  · rw [e]; exact .divZero i s hm
  · rw [e]
    rcases hm with h | h <;> exact .acc i s _ (by simp [h, Mnemonic.writesAcc]) (by simp [h])

theorem Effect.of_jumpIf {i : Instr} {s : State} {c : Bool}
    (hm : i.mnemonic.mode = .immediateTarget)
    (ht : i.takenTarget s.zf s.nf = if c = true then some i.operand else none) :
    Effect i s (s.jumpIf c i.operand) := by
  rcases jumpIf_cases s i.operand c with ⟨hc, e⟩ | ⟨hc, h, e⟩ | ⟨hc, h, e⟩ <;>
    rw [e] <;> simp only [hc, if_true, Bool.false_eq_true, if_false] at ht
  · exact .untaken i s hm ht
  · exact .taken i s _ ht h
  · exact .targetOob i s h ht

/-- Every instruction comes to a next state, of one of the shapes of `Effect`. -/
theorem exec_effect (i : Instr) (s : State) : ∃ t, exec i s = .next t ∧ Effect i s t := by
  cases i with
  | halt => exact ⟨_, rfl, .halt s⟩
  | load opd => exact ⟨_, rfl, .of_withIndirect (i := .load opd) rfl fun v => .acc _ s v rfl nofun⟩
  | loadi opd => exact ⟨_, rfl, .acc _ s _ rfl nofun⟩
  | store opd =>
    refine ⟨_, rfl, ?_⟩
    rcases withAddress_cases s opd fun a => (s.writeCell a s.acc).advance with ⟨h, e⟩ | ⟨h, e⟩
    · rw [e]; exact .store opd s h
    · rw [e]; exact .addrOob (.store opd) s h (.inr rfl)
  | add opd => exact ⟨_, rfl, .of_withIndirect (i := .add opd) rfl fun v => .acc _ s _ rfl nofun⟩
  | addi opd => exact ⟨_, rfl, .acc _ s _ rfl nofun⟩
  | sub opd => exact ⟨_, rfl, .of_withIndirect (i := .sub opd) rfl fun v => .acc _ s _ rfl nofun⟩
  | subi opd => exact ⟨_, rfl, .acc _ s _ rfl nofun⟩
  | mul opd => exact ⟨_, rfl, .of_withIndirect (i := .mul opd) rfl fun v => .acc _ s _ rfl nofun⟩
  | muli opd => exact ⟨_, rfl, .acc _ s _ rfl nofun⟩
  | div opd =>
    exact ⟨_, rfl, .of_withIndirect (i := .div opd) rfl fun v => .of_divide v (.inl rfl)⟩
  | divi opd => exact ⟨_, rfl, .of_divide _ (.inr rfl)⟩
  | mod opd => exact ⟨_, rfl, .of_withIndirect (i := .mod opd) rfl fun v => .acc _ s _ rfl nofun⟩
  | modi opd => exact ⟨_, rfl, .acc _ s _ rfl nofun⟩
  | cmp opd =>
    exact ⟨_, rfl, .of_withIndirect (i := .cmp opd) rfl fun v => .compare _ s _ rfl⟩
  | cmpi opd => exact ⟨_, rfl, .compare _ s _ rfl⟩
  | jmpi opd => exact ⟨_, rfl, .of_jumpIf (i := .jmpi opd) (c := true) rfl rfl⟩
  | jei opd => exact ⟨_, rfl, .of_jumpIf (i := .jei opd) rfl rfl⟩
  | jnei opd =>
    refine ⟨_, rfl, .of_jumpIf (i := .jnei opd) rfl ?_⟩
    simp [Instr.takenTarget, State.isNotEqual, Instr.operand]
  | jli opd => exact ⟨_, rfl, .of_jumpIf (i := .jli opd) rfl rfl⟩
  | jlei opd =>
    refine ⟨_, rfl, .of_jumpIf (i := .jlei opd) rfl ?_⟩
    simp [Instr.takenTarget, State.isLessOrEqual, Instr.operand]
  | jgi opd =>
    refine ⟨_, rfl, .of_jumpIf (i := .jgi opd) rfl ?_⟩
    simp [Instr.takenTarget, State.isGreater, Instr.operand]
  | jgei opd =>
    refine ⟨_, rfl, .of_jumpIf (i := .jgei opd) rfl ?_⟩
    simp [Instr.takenTarget, State.isGreaterOrEqual, Instr.operand]
  | inp =>
    rcases answer_cases s with ⟨x, rest, hi, ha⟩ | ⟨hi, he, ha⟩ | ⟨_, _, ha⟩
    · exact ⟨_, by simp only [exec, execIn, ha], .got s x rest hi⟩
    · exact ⟨_, by simp only [exec, execIn, ha], .exhausted s hi he⟩
    · exact ⟨s, by simp only [exec, execIn, ha], .hold s ha⟩
  | out => exact ⟨_, rfl, .out s⟩

/-- What an instruction answered is of one of the shapes of `Effect`. -/
theorem effect_of_exec {i : Instr} {s t : State} (h : exec i s = .next t) : Effect i s t := by
  obtain ⟨u, hu, he⟩ := exec_effect i s
  rw [hu] at h
  cases h
  exact he

theorem enabled_iff (s : State) : s.enabled = true ↔ s.rs = .ready ∨ s.rs = .running := by
  unfold State.enabled
  cases s.rs <;> simp

/-- A step has one word to perform. -/
theorem performs_unique {s : State} {i j : Instr} (h : s.Performs i) (h' : s.Performs j) :
    i = j := by
  have := h.2.2.1.symm.trans h'.2.2.1
  cases this
  rfl

/-- What a step can do: a stopped core; a fetch out of range; an unknown opcode; a hold; or an
instruction performed on the latched state, to one of the shapes of `Effect`. -/
theorem step_cases {s t : State} (h : step s = .next t) :
    (s.enabled = false ∧ t = s ∧ s.held = false ∧ ∀ i, ¬ s.Performs i) ∨
    (s.enabled = true ∧ s.cfg.memLen ≤ s.ip.toNat ∧ t = s.raise .ipOob s.ip ∧
      s.held = false ∧ ∀ i, ¬ s.Performs i) ∨
    (s.enabled = true ∧ s.ip.toNat < s.cfg.memLen ∧
      s.cfg.opcodes.mnemonicFor (opcodeOf s.fetchWord) = none ∧
      t = (s.latch s.fetchWord).raise .unknownOpcode s.fetchWord ∧
      s.held = false ∧ ∀ i, ¬ s.Performs i) ∨
    (s.enabled = true ∧ t = s ∧ s.held = true ∧ ∀ i, ¬ s.Performs i) ∨
    (∃ i, s.Performs i ∧ Effect i (s.latch s.fetchWord) t ∧ s.held = false) := by
  have word {i : Instr} (hp : s.Performs i) : decode s.cfg.opcodes s.fetchWord = .ok i :=
    hp.2.2.1
  rcases beginStep_cases s with ⟨h1, e⟩ | ⟨h1, h2, e⟩ | ⟨h1, h2, ⟨r, h3⟩, e⟩ |
    ⟨h1, h2, h3, h4, e⟩ | ⟨i, h1, h2, h3, h4, e⟩
  · rw [step_of_ended e] at h
    cases h
    exact .inl ⟨h1, rfl, by simp [State.held, h1], fun i hp => by simp [hp.1] at h1⟩
  · rw [step_of_ended e] at h
    cases h
    exact .inr (.inl ⟨h1, h2, rfl, by simp [State.held, h2],
      fun i hp => absurd hp.2.1 (Nat.not_lt.mpr h2)⟩)
  · rw [step_of_ended e] at h
    cases h
    exact .inr (.inr (.inl ⟨h1, h2, (decode_eq_error.mp h3).1, rfl, by simp [State.held, h3],
      fun i hp => by simp [word hp] at h3⟩))
  · rw [step_of_ended e] at h
    cases h
    refine .inr (.inr (.inr (.inl
      ⟨h1, rfl, by simp [State.held, h1, h2, h3, h4, State.holds], fun i hp => ?_⟩)))
    have hi : i = .inp := by simpa [h3, eq_comm] using word hp
    exact hp.2.2.2 ⟨hi, h4⟩
  · rw [step_of_run e] at h
    refine .inr (.inr (.inr (.inr ⟨i, ⟨h1, h2, h3, ?_⟩, effect_of_exec h, ?_⟩)))
    · rintro ⟨rfl, h5⟩
      simp [State.holds, h5] at h4
    · simp [State.held, h3, h4]

end Sys2Proof.Machine
end

