-- ==== Sys2Proof/Laws/Memory.lean ====
section
/-! SUPPORT. Reading after writing, and the canonical form of the memory list. -/

namespace Sys2Proof.Machine

variable (m : Memory) (a b : Nat) (v : Word)

theorem Memory.read_erase : (m.erase a).read b = if b = a then 0 else m.read b := by
  induction m with
  | nil => simp [Memory.erase, Memory.read]
  | cons c rest ih =>
    obtain ⟨x, w⟩ := c
    simp only [Memory.erase] at ih ⊢
    by_cases hxa : x = a
    · subst hxa
      simp only [List.filter_cons, bne_self_eq_false, Bool.false_eq_true, if_false, ih,
        Memory.read]
      split
      · rfl
      · next h => rw [if_neg (Ne.symm h)]
    · simp only [List.filter_cons, bne_iff_ne, ne_eq, hxa, not_false_eq_true, if_true,
        Memory.read, ih]
      by_cases hxb : x = b
      · subst hxb; simp [hxa]
      · simp [hxb]

theorem Memory.read_insert (h : m.read a = 0 ∧ ∀ c ∈ m, c.1 ≠ a) :
    (m.insert a v).read b = if b = a then v else m.read b := by
  induction m with
  | nil => simp only [Memory.insert, Memory.read, eq_comm]
  | cons c rest ih =>
    obtain ⟨x, w⟩ := c
    have hxa : x ≠ a := h.2 (x, w) (by simp)
    have hrest : Memory.read rest a = 0 := by
      have := h.1
      simpa [Memory.read, hxa] using this
    simp only [Memory.insert]
    split
    · simp only [Memory.read, eq_comm]
    · simp only [Memory.read]
      rw [ih ⟨hrest, fun c hc => h.2 c (by simp [hc])⟩]
      by_cases hxb : x = b
      · subst hxb; simp [hxa]
      · simp [hxb]

/-- Reading after writing: the cell written holds the value, every other its old word (R37). -/
theorem Memory.read_write : (m.write a v).read b = if b = a then v else m.read b := by
  unfold Memory.write
  split
  · next h => rw [Memory.read_erase, h]
  · rw [Memory.read_insert]
    · rw [Memory.read_erase]; split <;> rfl
    · refine ⟨by simp [Memory.read_erase], fun c hc => ?_⟩
      simpa using (List.mem_filter.mp hc).2

@[simp] theorem Memory.read_write_self : (m.write a v).read a = v := by
  simp [Memory.read_write]

theorem Memory.read_write_of_ne (h : b ≠ a) : (m.write a v).read b = m.read b := by
  simp [Memory.read_write, h]

variable {m a v}

theorem Memory.mem_insert {c : Nat × Word} (h : c ∈ m.insert a v) : c = (a, v) ∨ c ∈ m := by
  induction m with
  | nil => simpa [Memory.insert] using h
  | cons d rest ih =>
    simp only [Memory.insert] at h
    split at h
    · simpa using h
    · rcases List.mem_cons.mp h with rfl | h
      · simp
      · exact (ih h).imp id (List.mem_cons_of_mem _)

theorem Memory.erase_wf (h : m.wf) : (m.erase a).wf :=
  ⟨h.1.filter _, fun c hc => h.2 c (List.mem_filter.mp hc).1⟩

theorem Memory.insert_wf (h : m.wf) (hv : v ≠ 0) (ha : ∀ c ∈ m, c.1 ≠ a) :
    (m.insert a v).wf := by
  refine ⟨?_, fun c hc => ?_⟩
  · have hs := h.1
    clear h
    induction m with
    | nil => simp [Memory.insert]
    | cons d rest ih =>
      obtain ⟨x, w⟩ := d
      rw [List.pairwise_cons] at hs
      simp only [Memory.insert]
      split
      · next hlt =>
        refine List.pairwise_cons.mpr ⟨fun c hc => ?_, List.pairwise_cons.mpr hs⟩
        rcases List.mem_cons.mp hc with rfl | hc
        · exact hlt
        · exact hlt.trans (hs.1 c hc)
      · next hge =>
        have hxa := ha (x, w) (by simp)
        refine List.pairwise_cons.mpr ⟨fun c hc => ?_, ih (fun c hc => ha c (by simp [hc])) hs.2⟩
        rcases Memory.mem_insert hc with rfl | hc
        · simp only at hge hxa ⊢; omega
        · exact hs.1 c hc
  · rcases Memory.mem_insert hc with rfl | hc
    · exact hv
    · exact h.2 c hc

/-- Writing keeps the canonical form. -/
theorem Memory.write_wf (h : m.wf) : (m.write a v).wf := by
  unfold Memory.write
  split
  · exact Memory.erase_wf h
  · next hv =>
    refine Memory.insert_wf (Memory.erase_wf h) hv fun c hc => ?_
    simpa using (List.mem_filter.mp hc).2

/-- Writing an existing cell lists existing cells only. -/
theorem Memory.write_below {n : Nat} (h : m.below n) (ha : a < n) : (m.write a v).below n := by
  intro c hc
  unfold Memory.write at hc
  split at hc
  · exact h c (List.mem_filter.mp hc).1
  · rcases Memory.mem_insert hc with rfl | hc
    · exact ha
    · exact h c (List.mem_filter.mp hc).1

theorem Memory.reset_wf (c : Config) : (State.resetWith c).mem.wf := by
  simp [State.resetWith, Memory.wf]

end Sys2Proof.Machine
end

