-- ==== Sys2Proof/Laws/PerInstr.lean ====
section
/-! SUPPORT. Per instruction: it is rebuilt from its mnemonic and operand, and its word holds
exactly these two fields (30_encoding.md rules R51, R53, R59). -/

namespace Sys2Proof.Laws.Fields

/-- The word of `i` holds its opcode and its operand, and these two give `i` back. -/
def Statement (i : Instr) : Prop :=
  i.mnemonic.toInstr i.operand = i ∧
  ∀ m : OpcodeMap, opcodeOf (encode m i) = m.opcode i.mnemonic ∧
    operandOf (encode m i) = i.operand

/-- The fields of an encoded word, once for all instructions. -/
theorem of_rebuild (i : Instr) (h : i.mnemonic.toInstr i.operand = i) : Statement i :=
  ⟨h, fun _ => ⟨opcodeOf_joinFields _ _, operandOf_joinFields _ _⟩⟩

theorem halt : Statement .halt := of_rebuild _ rfl
theorem load (opd : Half) : Statement (.load opd) := of_rebuild _ rfl
theorem loadi (opd : Half) : Statement (.loadi opd) := of_rebuild _ rfl
theorem store (opd : Half) : Statement (.store opd) := of_rebuild _ rfl
theorem add (opd : Half) : Statement (.add opd) := of_rebuild _ rfl
theorem addi (opd : Half) : Statement (.addi opd) := of_rebuild _ rfl
theorem sub (opd : Half) : Statement (.sub opd) := of_rebuild _ rfl
theorem subi (opd : Half) : Statement (.subi opd) := of_rebuild _ rfl
theorem mul (opd : Half) : Statement (.mul opd) := of_rebuild _ rfl
theorem muli (opd : Half) : Statement (.muli opd) := of_rebuild _ rfl
theorem div (opd : Half) : Statement (.div opd) := of_rebuild _ rfl
theorem divi (opd : Half) : Statement (.divi opd) := of_rebuild _ rfl
theorem mod (opd : Half) : Statement (.mod opd) := of_rebuild _ rfl
theorem modi (opd : Half) : Statement (.modi opd) := of_rebuild _ rfl
theorem cmp (opd : Half) : Statement (.cmp opd) := of_rebuild _ rfl
theorem cmpi (opd : Half) : Statement (.cmpi opd) := of_rebuild _ rfl
theorem jmpi (opd : Half) : Statement (.jmpi opd) := of_rebuild _ rfl
theorem jei (opd : Half) : Statement (.jei opd) := of_rebuild _ rfl
theorem jnei (opd : Half) : Statement (.jnei opd) := of_rebuild _ rfl
theorem jli (opd : Half) : Statement (.jli opd) := of_rebuild _ rfl
theorem jlei (opd : Half) : Statement (.jlei opd) := of_rebuild _ rfl
theorem jgi (opd : Half) : Statement (.jgi opd) := of_rebuild _ rfl
theorem jgei (opd : Half) : Statement (.jgei opd) := of_rebuild _ rfl
theorem inp : Statement .inp := of_rebuild _ rfl
theorem out : Statement .out := of_rebuild _ rfl

end Sys2Proof.Laws.Fields
end

