-- ==== Sys2Proof/Tests/Slice0.lean ====
section
/-! SUPPORT. Tests of the model against spec/95_test_vectors.md and the examples of the
instructions' rules, the smoke tests of the checks, and witnesses for the hypotheses of the
statements. The expected results are the spec's; each test names its vector or rule. -/

namespace Sys2Proof.Machine.Tests

/-- One step. -/
def run1 (s : State) : State :=
  match step s with
  | .next t => t
  | .fault r => nomatch r
  | .refused _ => s

/-- The reset state with an image loaded from address 0. -/
def booted (image : List Word) : State := State.reset.boot image

/-- One word loaded and ACC set, the start of most vectors. -/
def at0 (w acc : Word) : State := { booted [w] with acc := acc }

/-- `at0` with one more cell loaded. -/
def at0With (w acc : Word) (a : Nat) (v : Word) : State :=
  { (booted [w]).loadWord a v with acc := acc }

/-! ### The checks refuse ill-formed terms -/

theorem test_config_default_legal : Config.default.wf = true := by decide

/-- R4: `1 <= MEM_LEN`. -/
theorem test_config_refuses_no_memory : (Config.mk 0 .default).wf = false := by decide

/-- R4: `MEM_LEN <= 65536`. -/
theorem test_config_refuses_too_much_memory : (Config.mk 65537 .default).wf = false := by
  decide

/-- R56 b: LOAD and HALT may not share an opcode. -/
theorem test_map_refuses_shared_opcode :
    OpcodeMap.wf { OpcodeMap.default with load := 0x0100 } = false := by decide

/-- R162: an image of more than MEM_LEN words does not fit. -/
theorem test_image_refused_when_too_long :
    (Config.mk 2 .default).fits [1, 2, 3] = false := by decide

/-! ### Decoding: each instruction's word, bit by bit from opcode_table.json -/

theorem test_decode_halt : decode .default 0b00000001000000000000000000000101#32 = .ok .halt := by decide
theorem test_decode_load : decode .default 0b00000010000000101111111111111111#32 = .ok (.load 0xFFFF) := by decide
theorem test_decode_loadi : decode .default 0b00000010000000011000000000000001#32 = .ok (.loadi 0x8001) := by decide
theorem test_decode_store : decode .default 0b00000011000000100000000000111011#32 = .ok (.store 0x003B) := by decide
theorem test_decode_add : decode .default 0b00000100000000100000000000000101#32 = .ok (.add 0x0005) := by decide
theorem test_decode_addi : decode .default 0b00000100000000011111111111111111#32 = .ok (.addi 0xFFFF) := by decide
theorem test_decode_sub : decode .default 0b00000101000000101000000000000001#32 = .ok (.sub 0x8001) := by decide
theorem test_decode_subi : decode .default 0b00000101000000010000000000111011#32 = .ok (.subi 0x003B) := by decide
theorem test_decode_mul : decode .default 0b00000110000000100000000000000101#32 = .ok (.mul 0x0005) := by decide
theorem test_decode_muli : decode .default 0b00000110000000011111111111111111#32 = .ok (.muli 0xFFFF) := by decide
theorem test_decode_div : decode .default 0b00000111000000101000000000000001#32 = .ok (.div 0x8001) := by decide
theorem test_decode_divi : decode .default 0b00000111000000010000000000111011#32 = .ok (.divi 0x003B) := by decide
theorem test_decode_mod : decode .default 0b00001000000000100000000000000101#32 = .ok (.mod 0x0005) := by decide
theorem test_decode_modi : decode .default 0b00001000000000011111111111111111#32 = .ok (.modi 0xFFFF) := by decide
theorem test_decode_cmp : decode .default 0b00001001000000101000000000000001#32 = .ok (.cmp 0x8001) := by decide
theorem test_decode_cmpi : decode .default 0b00001001000000010000000000111011#32 = .ok (.cmpi 0x003B) := by decide
theorem test_decode_jmpi : decode .default 0b00001010000000010000000000000101#32 = .ok (.jmpi 0x0005) := by decide
theorem test_decode_jei : decode .default 0b00001011000000011111111111111111#32 = .ok (.jei 0xFFFF) := by decide
theorem test_decode_jnei : decode .default 0b00001100000000011000000000000001#32 = .ok (.jnei 0x8001) := by decide
theorem test_decode_jli : decode .default 0b00001101000000010000000000111011#32 = .ok (.jli 0x003B) := by decide
theorem test_decode_jlei : decode .default 0b00001110000000010000000000000101#32 = .ok (.jlei 0x0005) := by decide
theorem test_decode_jgi : decode .default 0b00001111000000011111111111111111#32 = .ok (.jgi 0xFFFF) := by decide
theorem test_decode_jgei : decode .default 0b00010000000000011000000000000001#32 = .ok (.jgei 0x8001) := by decide
theorem test_decode_inp : decode .default 0b00010001000000000000000000111011#32 = .ok .inp := by decide
theorem test_decode_out : decode .default 0b00010010000000000000000000000101#32 = .ok .out := by decide

/-- V-DEC-5 to V-DEC-8: unknown opcodes. -/
theorem test_decode_refuses :
    decode .default 0x00000000 = .error (.unknownOpcode 0x0000) ∧
    decode .default 0x8100ABCD = .error (.unknownOpcode 0x8100) ∧
    decode .default 0xFFFFFFFF = .error (.unknownOpcode 0xFFFF) ∧
    decode .default 0x02000005 = .error (.unknownOpcode 0x0200) := by decide

/-- E1: `encode(LOADI, 5) = 0x02010005`. -/
theorem test_encode_loadi : encode .default (.loadi 5) = 0x02010005 := by decide

/-- Another legal map decodes by its own numbers (R56). -/
theorem test_decode_other_map :
    decode { OpcodeMap.default with halt := 0 } 0x00000000 = .ok .halt := by decide

theorem test_decodeTableWord :
    decodeTableWord 32 0x0302000A = some (.store 10) ∧ decodeTableWord 32 0 = none := by decide

theorem test_withFetchWord :
    (run1 (State.reset.withFetchWord 32 0x02010005)).acc = 5 := by decide

/-! ### Loads and the store -/

/-- V-LS-4. -/
theorem test_load_masks : (run1 (at0With 0x02020005 0 5 0xFFFFFFFF)).acc = 0x0000FFFF := by decide

/-- V-LS-8. -/
theorem test_load_out_of_range :
    run1 (at0 0x0202003C 9) =
      { at0 0x0202003C 9 with
        rs := .faulted, fcause := .addrOob, finfo := 60, ir := 0x0202003C } :=
  by decide

/-- V-LS-2. -/
theorem test_loadi_unsigned : (run1 (at0 0x0201FFFF 0)).acc = 0x0000FFFF := by decide

/-- V-LS-10. -/
theorem test_store_whole_word :
    (run1 (at0 0x0302000A 0xFFFFFFFF)).mem.read 10 = 0xFFFFFFFF :=
  by decide

/-- V-LS-11. -/
theorem test_store_own_cell :
    (run1 (at0 0x03020000 0x01000000)).mem.read 0 = 0x01000000 ∧
      (run1 (at0 0x03020000 0x01000000)).ir = 0x03020000 :=
  by decide

/-! ### Arithmetic -/

/-- V-ADD-5. -/
theorem test_add_low_half :
    (run1 (at0With 0x04020005 5 5 0xFFFFFFFF)).acc = 0x00010004 :=
  by decide

/-- V-ADD-2. -/
theorem test_addi_wraps : (run1 (at0 0x04010001 0x7FFFFFFF)).acc = 0x80000000 := by decide

/-- V-ADD-3. -/
theorem test_addi_keeps_flags :
    (run1 (at0 0x04010001 0xFFFFFFFF)).acc = 0 ∧
      (run1 (at0 0x04010001 0xFFFFFFFF)).zf = false :=
  by decide

/-- V-SUB-4. -/
theorem test_sub : (run1 (at0With 0x05020007 8 7 3)).acc = 5 := by decide

/-- V-SUB-3. -/
theorem test_subi_wraps : (run1 (at0 0x05010001 0x80000000)).acc = 0x7FFFFFFF := by decide

/-- R105, example. -/
theorem test_mul : (run1 (at0With 0x06020009 6 9 7)).acc = 42 := by decide

/-- V-MUL-2. -/
theorem test_muli_negative : (run1 (at0 0x06010004 0xFFFFFFFD)).acc = 0xFFFFFFF4 := by decide

/-- V-MUL-6. -/
theorem test_muli_wraps : (run1 (at0 0x0601FFFF 0x7FFFFFFF)).acc = 0x7FFF0001 := by decide

/-- R107, example. -/
theorem test_div : (run1 (at0With 0x07020009 17 9 5)).acc = 3 := by decide

/-- V-DIV-10. -/
theorem test_div_zero_low_half :
    run1 (at0With 0x07020003 9 3 0x00010000) =
      { at0With 0x07020003 9 3 0x00010000 with
        rs := .faulted, fcause := .divZero, finfo := 0, ir := 0x07020003 } :=
  by decide

/-- V-DIV-4. -/
theorem test_divi_toward_zero : (run1 (at0 0x07010002 0xFFFFFFF9)).acc = 0xFFFFFFFD := by decide

/-- V-DIV-7. -/
theorem test_divi_most_negative : (run1 (at0 0x0701FFFF 0x80000000)).acc = 0xFFFF8000 := by decide

/-- V-MOD-11. -/
theorem test_mod_zero_low_half : (run1 (at0With 0x08020003 9 3 0x00010000)).acc = 0 := by decide

/-- V-MOD-4. -/
theorem test_modi_negative : (run1 (at0 0x08010002 0xFFFFFFF9)).acc = 0xFFFFFFFF := by decide

/-- V-MOD-10. -/
theorem test_modi_zero :
    (run1 (at0 0x08010000 0xDEADBEEF)).acc = 0 ∧
      (run1 (at0 0x08010000 0xDEADBEEF)).rs = .running :=
  by decide

/-! ### Comparison -/

/-- `(ZF, NF)` after one step. -/
def flagsAfter (s : State) : Bool × Bool := ((run1 s).zf, (run1 s).nf)

/-- V-CMP-1. -/
theorem test_cmpi_equal : flagsAfter (at0 0x09010004 4) = (true, false) := by decide

/-- V-CMP-8 and V-CMP-9, either side of the overflow band's end. -/
theorem test_cmpi_band :
    flagsAfter (at0 0x0901FFFF 0x8000FFFE) = (false, false) ∧
      flagsAfter (at0 0x0901FFFF 0x8000FFFF) = (false, true) :=
  by decide

/-- V-CMP-13. -/
theorem test_cmp_stored_minus_one :
    flagsAfter (at0With 0x09020005 0xFFFFFFFF 5 0xFFFFFFFF) = (false, true) :=
  by decide

/-- V-CMP-14. -/
theorem test_cmp_out_of_range_keeps_flags :
    flagsAfter { at0 0x0902003C 4 with zf := true } = (true, false) :=
  by decide

/-! ### Jumps: V-J-1 to V-J-7, the pc on flags (0,0), (1,0) and (0,1) -/

/-- The jump word at address 2 and a HALT word at 7 (95_test_vectors.md, Jumps). -/
def atJump (w : Word) (zf nf : Bool) : State :=
  { (booted [0, 0, w]).loadWord 7 0x01000000 with ip := 2, zf := zf, nf := nf, rs := .running }

/-- The pc after the jump, on the three flag states. -/
def ipsAfter (w : Word) : List Word :=
  [(run1 (atJump w false false)).ip, (run1 (atJump w true false)).ip,
   (run1 (atJump w false true)).ip]

theorem test_jmpi : ipsAfter 0x0A010007 = [7, 7, 7] := by decide

theorem test_jei : ipsAfter 0x0B010007 = [3, 7, 3] := by decide

theorem test_jnei : ipsAfter 0x0C010007 = [7, 3, 7] := by decide

theorem test_jli : ipsAfter 0x0D010007 = [3, 3, 7] := by decide

theorem test_jlei : ipsAfter 0x0E010007 = [3, 7, 7] := by decide

theorem test_jgi : ipsAfter 0x0F010007 = [7, 3, 3] := by decide

theorem test_jgei : ipsAfter 0x10010007 = [7, 7, 3] := by decide

/-- V-J-9. -/
theorem test_jei_untaken_out_of_range :
    (run1 (booted [0x0B01FFFF, 0x01000000])).ip = 1 ∧
      (run1 (booted [0x0B01FFFF, 0x01000000])).rs = .running :=
  by decide

/-- R130 and V-J-8: the refresh, and a target out of range. -/
theorem test_jmpi_refresh_and_range :
    (run1 (atJump 0x0A010007 false false)).ir = 0x01000000 ∧
      run1 (booted [0x0A01003C]) =
        { booted [0x0A01003C] with
          rs := .faulted, fcause := .targetOob, finfo := 60, ir := 0x0A01003C } := by decide

/-! ### Streams -/

/-- An IN word with pending input. -/
def atIn (input : List Word) (ended : Bool) : State :=
  (booted [0x1100ABCD]).attach input ended

/-- V-IO-1 and V-IO-5. -/
theorem test_in_takes_value :
    (run1 (atIn [0xFFFFFFFE, 7] true)).acc = 0xFFFFFFFE ∧
      (run1 (atIn [0xFFFFFFFE, 7] true)).input = [7] :=
  by decide

/-- V-IO-3 and V-IO-4: the end of the stream, and a hold. -/
theorem test_in_without_value :
    run1 (atIn [] true) =
        { atIn [] true with
          rs := .faulted, fcause := .inputExhausted, finfo := 0, ir := 0x1100ABCD } ∧
      run1 (atIn [] false) = atIn [] false := by decide

/-- V-IO-7 and V-IO-8. -/
theorem test_out_low_byte :
    (run1 (at0 0x12000000 0x00000141)).output = [0x41] ∧
      (run1 (at0 0x12000000 0xFFFFFFFF)).output = [0xFF] :=
  by decide

/-! ### Step, halt, faults and the host -/

/-- V-ST-9 and R79. -/
theorem test_halt_ignores_operand :
    run1 (booted [0x0100FFFF]) =
      { booted [0x0100FFFF] with rs := .halted, ir := 0x0100FFFF } :=
  by decide

/-- V-ST-1. -/
theorem test_first_step_of_empty_memory :
    run1 State.reset =
      { State.reset with rs := .faulted, fcause := .unknownOpcode, finfo := 0 } :=
  by decide

/-- V-ST-3, the last step. -/
theorem test_fetch_past_the_end :
    run1 { State.reset with ip := 60, rs := .running, ir := 0x04010001 } =
      { State.reset with
        ip := 60, ir := 0x04010001, rs := .faulted, fcause := .ipOob, finfo := 60 } :=
  by decide

/-- C5 and R74: the last cell's instruction completes. -/
theorem test_last_cell_advances :
    (run1 { (State.reset.loadWord 59 0x04010001) with ip := 59 }).ip = 60 :=
  by decide

/-- V-ST-5. -/
theorem test_step_when_halted :
    run1 { State.reset with rs := .halted } = { State.reset with rs := .halted } :=
  by decide

/-- V-ST-6 and V-ST-7. -/
theorem test_loadWord_refused :
    ({ State.reset with rs := .running }.loadWord 3 5).mem.read 3 = 0 ∧
      State.reset.loadWord 60 5 = State.reset :=
  by decide

/-- V-ST-8. -/
theorem test_reset_from_faulted : (run1 State.reset).resetCore = State.reset := by decide

/-! ### Witnesses: a concrete state and operands for the hypotheses of each statement, with one
for each clause at its boundary -/

/-- The loaded word is performed as `i` (R70 to R73). -/
theorem test_witness_performs :
    (at0 0x01000000 0).Performs .halt ∧ (at0 0x0302003B 8).Performs (.store 59) ∧
      (at0 0x09010004 4).Performs (.cmpi 4) ∧ (at0 0x04010003 5).Performs (.addi 3) ∧
      (at0 0x0A010000 0).Performs (.jmpi 0) ∧ (at0 0x12000000 72).Performs .out ∧
      (atIn [7] true).Performs .inp := by
  simp only [State.Performs]
  decide

theorem test_witness_DecodeEncodeAgree : OpcodeMap.default.wf = true := by decide

theorem test_witness_DecodedWordEncodesBack :
    decode .default 0x0302000A = .ok (.store 10) ∧ (Instr.store 10).mnemonic.arity = 1 := by
  decide

theorem test_witness_OperandBitsNeverSelect :
    OpcodeMap.default.mnemonicFor 0 = none ∧
      OpcodeMap.default.mnemonicFor 0x0100 = some .halt ∧ Mnemonic.halt.arity = 0 := by decide

theorem test_witness_UnknownOpcodesCounted : OpcodeMap.default.wf = true := by decide

theorem test_witness_StepRunsDecodedInstruction : (at0 0x04010003 5).Performs (.addi 3) :=
  test_witness_performs.2.2.2.1

theorem test_witness_StoppedCoreIgnoresStep :
    { State.reset with rs := .halted }.rs = .halted ∧ (run1 State.reset).rs = .faulted := by
  decide

theorem test_witness_FetchOutOfRangeFaults :
    { State.reset with ip := 60 }.rs = .ready ∧
      { State.reset with ip := 60 }.cfg.memLen ≤ { State.reset with ip := 60 }.ip.toNat := by
  decide

theorem test_witness_UnknownOpcodeFaults :
    State.reset.rs = .ready ∧ State.reset.ip.toNat < State.reset.cfg.memLen ∧
      State.reset.mem.read State.reset.ip.toNat = 0 ∧
      State.reset.cfg.opcodes.mnemonicFor (opcodeOf 0) = none := by decide

theorem test_witness_HeldInputChangesNothing :
    (atIn [] false).rs = .ready ∧ (atIn [] false).ip.toNat < (atIn [] false).cfg.memLen ∧
      decode (atIn [] false).cfg.opcodes ((atIn [] false).mem.read (atIn [] false).ip.toNat)
        = .ok .inp ∧
      (atIn [] false).input = [] ∧ (atIn [] false).inputEnded = false := by decide

/-- One move per clause: reset, LoadWord, a halted core, a hold, HALT, ADDI. -/
theorem test_witness_RunStateTransitions :
    transact .reset State.reset = .next State.reset ∧
      transact (.loadWord 0 5) State.reset = .next (State.reset.loadWord 0 5) ∧
      transact .step { State.reset with rs := .halted } =
        .next { State.reset with rs := .halted } ∧
      transact .step (atIn [] false) = .next (atIn [] false) ∧ (atIn [] false).held = true ∧
      transact .step (at0 0x01000000 0) = .next (run1 (at0 0x01000000 0)) ∧
      (at0 0x01000000 0).held = false ∧
      transact .step (at0 0x04010003 5) = .next (run1 (at0 0x04010003 5)) :=
  ⟨rfl, rfl, rfl, rfl, rfl, rfl, rfl, rfl⟩

/-- A hold, a completed step, a HALT and a fault. -/
theorem test_witness_OutcomeReadFromRunState :
    (atIn [] false).rs = .ready ∧ (atIn [] false).held = true ∧
      step (atIn [] false) = .next (atIn [] false) ∧
      (at0 0x04010003 5).held = false ∧ (run1 (at0 0x04010003 5)).rs = .running ∧
      (run1 (at0 0x01000000 0)).rs = .halted ∧ (run1 State.reset).rs = .faulted :=
  ⟨rfl, rfl, rfl, rfl, rfl, rfl, rfl⟩

/-- HALT, a taken JMPI and ADDI, none of which faults. -/
theorem test_witness_TrailingIncrement :
    (at0 0x01000000 0).Performs .halt ∧ (run1 (at0 0x01000000 0)).rs ≠ .faulted ∧
      (at0 0x0A010000 0).Performs (.jmpi 0) ∧ (run1 (at0 0x0A010000 0)).rs ≠ .faulted ∧
      (Instr.jmpi 0).takenTarget false false = some 0 ∧
      (at0 0x04010003 5).Performs (.addi 3) ∧ (run1 (at0 0x04010003 5)).rs ≠ .faulted ∧
      (Instr.addi 3).takenTarget false false = none := by
  simp only [State.Performs]
  decide

/-- A taken jump that does not fault, and one whose target is out of range. -/
theorem test_witness_InstructionRegisterAfterStep :
    (at0 0x0A01003B 0).Performs (.jmpi 59) ∧ (run1 (at0 0x0A01003B 0)).rs ≠ .faulted ∧
      (Instr.jmpi 59).takenTarget false false = some 59 ∧
      (at0 0x0A01003C 0).Performs (.jmpi 60) ∧ (run1 (at0 0x0A01003C 0)).rs = .faulted ∧
      (at0 0x04010003 5).Performs (.addi 3) ∧
      (Instr.addi 3).takenTarget false false = none := by
  simp only [State.Performs]
  decide

/-- A fetch fault and another. -/
theorem test_witness_FaultsArePrecise :
    (run1 { State.reset with ip := 60 }).rs = .faulted ∧
      (run1 { State.reset with ip := 60 }).fcause = .ipOob ∧
      (run1 State.reset).rs = .faulted ∧ (run1 State.reset).fcause ≠ .ipOob := by decide

/-- A RUNNING state at the overrun meets the invariant. -/
theorem test_witness_FetchOverrunOnlyPastTheLastCell :
    { State.reset with ip := 60, rs := .running }.Inv :=
  ⟨by decide, by decide, by decide, by decide, by decide⟩

/-- Reset, LoadWord at the last cell, a STORE to it, and a step that writes none. -/
theorem test_witness_OnlyStoreLoaderAndResetWriteMemory :
    transact .reset (at0 0x0302003B 8) = .next (at0 0x0302003B 8).resetCore ∧
      transact (.loadWord 59 8) State.reset = .next (State.reset.loadWord 59 8) ∧
      transact .step (at0 0x0302003B 8) = .next (run1 (at0 0x0302003B 8)) ∧
      (run1 (at0 0x0302003B 8)).mem.read 59 = 8 ∧
      transact .step (at0 0x04010003 5) = .next (run1 (at0 0x04010003 5)) :=
  ⟨rfl, rfl, rfl, rfl, rfl⟩

theorem test_witness_OnlyComparisonsWriteFlags :
    transact .step (at0 0x09010004 4) = .next (run1 (at0 0x09010004 4)) ∧
      (run1 (at0 0x09010004 4)).zf ≠ (at0 0x09010004 4).zf :=
  ⟨rfl, by decide⟩

theorem test_witness_OnlyListedInstructionsWriteAcc :
    transact .step (at0 0x04010003 5) = .next (run1 (at0 0x04010003 5)) ∧
      (run1 (at0 0x04010003 5)).acc ≠ (at0 0x04010003 5).acc :=
  ⟨rfl, by decide⟩

theorem test_witness_ConfigurationNeverChanges :
    transact .snapshot State.reset = .next State.reset := rfl

/-- An OUT and another instruction. -/
theorem test_witness_OutputGrowsByOutAlone :
    step (at0 0x12000000 72) = .next (run1 (at0 0x12000000 72)) ∧
      (at0 0x12000000 72).Performs .out ∧
      step (at0 0x01000000 0) = .next (run1 (at0 0x01000000 0)) ∧
      ¬ (at0 0x01000000 0).Performs .out :=
  ⟨rfl, test_witness_performs.2.2.2.2.2.1, rfl, by simp only [State.Performs]; decide⟩

/-- An IN with a value and another instruction. -/
theorem test_witness_InputConsumedByInAlone :
    step (atIn [7] true) = .next (run1 (atIn [7] true)) ∧ (atIn [7] true).Performs .inp ∧
      (atIn [7] true).input = [7] ∧
      step (at0 0x01000000 0) = .next (run1 (at0 0x01000000 0)) ∧
      ¬ (at0 0x01000000 0).Performs .inp :=
  ⟨rfl, test_witness_performs.2.2.2.2.2.2, rfl, rfl, by simp only [State.Performs]; decide⟩

/-- A loaded state that is about to store. -/
theorem test_witness_StepKeepsMachineInv :
    (at0 0x0302003B 8).Inv ∧ step (at0 0x0302003B 8) = .next (run1 (at0 0x0302003B 8)) :=
  ⟨⟨by decide, by decide, by decide, by decide, by decide⟩, rfl⟩

/-- A loaded state whose step faults, and a faulted state. -/
theorem test_witness_StepKeepsFaultRecord :
    (at0 0x0202003C 9).FaultRecord ∧ step (at0 0x0202003C 9) = .next (run1 (at0 0x0202003C 9)) ∧
      (run1 (at0 0x07010000 9)).FaultRecord :=
  ⟨⟨rfl, rfl⟩, rfl, ⟨rfl, .inr rfl⟩⟩

/-- A READY state whose step halts, and a HALTED state. -/
theorem test_witness_StepKeepsRunRecord :
    (booted [0x01000000]).RunRecord ∧
      step (booted [0x01000000]) = .next (run1 (booted [0x01000000])) ∧
      (run1 (booted [0x01000000])).RunRecord := by
  refine ⟨?_, rfl, ?_⟩ <;> simp only [State.RunRecord] <;> decide

theorem test_witness_InvariantsHoldAtReset :
    (Config.mk 1 .default).wf = true ∧ (Config.mk 65536 .default).wf = true := by decide

theorem test_witness_HostMovesKeepInvariants :
    Move.loadWord 59 8 ≠ .step ∧
      transact (.loadWord 59 8) State.reset = .next (State.reset.loadWord 59 8) ∧
      State.reset.Inv ∧ State.reset.FaultRecord ∧ State.reset.RunRecord :=
  ⟨by decide, rfl, ⟨by decide, by decide, by decide, by decide, by decide⟩, ⟨rfl, rfl⟩,
    by simp only [State.RunRecord]; decide⟩

/-- Load, supply input, step. -/
theorem test_witness_ReachableStatesKeepInvariants :
    Config.default.wf = true ∧
      runMoves [.loadWord 0 0x11000000, .attach [7] true, .step] (.resetWith .default) =
        .next (run1 ((State.reset.loadWord 0 0x11000000).attach [7] true)) :=
  ⟨by decide, rfl⟩

/-- The last address that exists and the first that does not, for LOAD, STORE, ADD, SUB, MUL,
DIV, MOD, CMP, JMPI and the conditional jumps. -/
theorem test_witness_address_bounds :
    (59 : Half).toNat < State.reset.cfg.memLen ∧ State.reset.cfg.memLen ≤ (60 : Half).toNat := by
  decide

theorem test_witness_StoreSeenByNextFetch :
    (at0 0x03020001 8).Performs (.store 1) ∧ (1 : Half).toNat < (at0 0x03020001 8).cfg.memLen ∧
      step (at0 0x03020001 8) = .next (run1 (at0 0x03020001 8)) ∧
      (run1 (at0 0x03020001 8)).ip.toNat = (1 : Half).toNat ∧
      (at0 0x03020000 8).Performs (.store 0) ∧ (at0 0x03020000 8).ip.toNat = (0 : Half).toNat :=
  ⟨by simp only [State.Performs]; decide, by decide, rfl, by decide,
    by simp only [State.Performs]; decide, by decide⟩

/-- A divisor that is zero and one that is not, in the operand and in a cell's low half. -/
theorem test_witness_DivTruncatesOrFaults :
    (1 : Half) ≠ 0 ∧ (3 : Half).toNat < State.reset.cfg.memLen ∧
      (at0With 0x07020003 9 3 0x00010001).lowHalf 3 ≠ 0 ∧
      (at0With 0x07020003 9 3 0x00010000).lowHalf 3 = 0 := by decide

/-- The same for MOD and MODI. -/
theorem test_witness_ModPairsWithTruncation :
    (1 : Half) ≠ 0 ∧ (3 : Half).toNat < State.reset.cfg.memLen ∧
      (at0With 0x08020003 9 3 0x00010001).lowHalf 3 ≠ 0 ∧
      (at0With 0x08020003 9 3 0x00010000).lowHalf 3 = 0 := by decide

theorem test_witness_UpperHalfNeverReachesTheAlu :
    (Instr.add 5).mnemonic.mode = .indirectValue ∧
      (Memory.read [(5, 0xFFFF0003)] (Instr.add 5).operand.toNat).toNat % 65536 =
        (at0With 0x04020005 5 5 3).lowHalf (Instr.add 5).operand ∧
      ∃ t, exec (.add 5) (at0With 0x04020005 5 5 3) = .next t :=
  ⟨rfl, by decide, _, rfl⟩

theorem test_witness_ImmediateFormsIgnoreMemory :
    Instr.out.mnemonic.mode = .none ∧ (Instr.addi 3).mnemonic.mode = .immediateValue ∧
      (∃ t, exec .out State.reset = .next t) ∧ ∃ t, exec (.addi 3) State.reset = .next t :=
  ⟨rfl, rfl, ⟨_, rfl⟩, _, rfl⟩

/-- The last accumulator inside the overflow band for 65535 and the first outside (V-CMP-8,
V-CMP-9). -/
theorem test_witness_CompareReadsAsOrderOutsideBand :
    (∃ t, exec (.cmpi 65535) (at0 0x0901FFFF 0x8000FFFE) = .next t) ∧
      (at0 0x0901FFFF 0x8000FFFE).acc.toInt < -2 ^ 31 + (((65535 : Half).toNat : Nat) : Int) ∧
      -2 ^ 31 + (((65535 : Half).toNat : Nat) : Int) ≤ (at0 0x0901FFFF 0x8000FFFF).acc.toInt ∧
      (∃ t, exec (.cmp 5) (at0With 0x09020005 4 5 4) = .next t) ∧
      (5 : Half).toNat < (at0With 0x09020005 4 5 4).cfg.memLen :=
  ⟨⟨_, rfl⟩, by decide, by decide, ⟨_, rfl⟩, by decide⟩

theorem test_witness_ComparisonFlagsExclusive :
    (∃ t, exec (.cmpi 4) (at0 0x09010004 4) = .next t) ∧
      (∃ t, exec (.cmp 59) (at0 0x0902003B 4) = .next t) ∧
      (59 : Half).toNat < (at0 0x0902003B 4).cfg.memLen :=
  ⟨⟨_, rfl⟩, ⟨_, rfl⟩, by decide⟩

/-- JEI untaken, taken in range, and taken out of range. -/
theorem test_witness_ConditionalJumpsComplete :
    (Instr.jei 59).mnemonic.mode = .immediateTarget ∧
      (Instr.jei 59).takenTarget false false = none ∧
      (Instr.jei 59).takenTarget true false = some 59 ∧
      (Instr.jei 60).takenTarget true false = some 60 := by decide

theorem test_witness_SelfJumpRunsForever :
    (run1 (booted [0x0A010000])).rs = .running ∧
      (run1 (booted [0x0A010000])).Performs (.jmpi 0) ∧
      (0 : Half).toNat = (run1 (booted [0x0A010000])).ip.toNat ∧
      (run1 (booted [0x0A010000])).ir =
        (run1 (booted [0x0A010000])).mem.read (run1 (booted [0x0A010000])).ip.toNat := by
  simp only [State.Performs]
  decide

/-- The three answers to IN, and a held IN word. -/
theorem test_witness_InTakesOneValueOrFaults :
    (atIn [7] false).answer = .got 7 ∧ (atIn [] true).answer = .exhausted ∧
      (atIn [] false).answer = .notReady ∧ (atIn [] false).ip.toNat < (atIn [] false).cfg.memLen ∧
      decode (atIn [] false).cfg.opcodes ((atIn [] false).mem.read (atIn [] false).ip.toNat)
        = .ok .inp := by decide

/-- A STORE and another instruction. -/
theorem test_witness_EveryOtherCellIsKept :
    (∃ t, exec (.store 59) State.reset = .next t) ∧
      (∃ t, exec (.load 59) State.reset = .next t) ∧
      (Instr.load 59).mnemonic ≠ .store ∧ (Instr.store 59).mnemonic = .store :=
  ⟨⟨_, rfl⟩, ⟨_, rfl⟩, by decide, rfl⟩

/-- OUT on a RUNNING state: it writes neither ACC nor a flag, and does not fault. -/
theorem test_witness_RegistersKeptByOthers :
    exec .out { State.reset with rs := .running } =
        .next { State.reset with rs := .running, output := [0], ip := 1 } ∧
      Instr.out.mnemonic.writesAcc = false ∧ Instr.out.mnemonic.writesFlags = false ∧
      Instr.out.takenTarget false false = none :=
  ⟨rfl, rfl, rfl, rfl⟩

/-- READY at the last cell; a RUNNING core; the first address that does not exist. -/
theorem test_witness_LoadWordOnlyWhileReady :
    State.reset.rs = .ready ∧ 59 < State.reset.cfg.memLen ∧
      { State.reset with rs := .running }.rs ≠ .ready ∧ State.reset.cfg.memLen ≤ 60 := by decide

theorem test_witness_ImageIsLaidOutFromZero :
    State.reset.cfg.fits (List.replicate 60 0x04010001) = true := by decide

theorem test_witness_HaltOnlyProgramStops :
    1 ≤ State.reset.cfg.memLen ∧ decode State.reset.cfg.opcodes 0x01000000 = .ok .halt := by
  decide

theorem test_witness_SnapshotShowsEveryCell : 59 < State.reset.cfg.memLen := by decide

end Sys2Proof.Machine.Tests
end

/-! PROOFS. What a step leaves in IR, and that every step keeps the fault record and the run
record (10_state.md rules R14, R16, R17, R19). -/

namespace Sys2Proof

/-! What the decoded instruction says of its word. -/

theorem Mnemonic.operand_toInstr {k : Mnemonic} (x : Half) (h : k.mode ≠ .none) :
    (k.toInstr x).operand = x := by
  cases k with
  | halt | inp | out => exact absurd rfl h
  | _ => rfl

theorem Instr.mode_of_takenTarget {i : Instr} {zf nf : Bool} {x : Half}
    (h : i.takenTarget zf nf = some x) : i.mnemonic.mode = .immediateTarget := by
  cases i with
  | jmpi | jei | jnei | jli | jlei | jgi | jgei => rfl
  | _ => cases h

/-- Only a jump redirects the pc: the other modes have no target (R58, R130). -/
theorem Instr.takenTarget_eq_none {i : Instr} (zf nf : Bool)
    (h : i.mnemonic.mode ≠ .immediateTarget) : i.takenTarget zf nf = none :=
  Option.eq_none_iff_forall_ne_some.mpr fun _ hx => h (Instr.mode_of_takenTarget hx)

theorem Mnemonic.mode_ne_target_of_writesAcc {k : Mnemonic} (h : k.writesAcc = true) :
    k.mode ≠ .immediateTarget := by
  revert h; cases k <;> decide

theorem Mnemonic.mode_ne_target_of_writesFlags {k : Mnemonic} (h : k.writesFlags = true) :
    k.mode ≠ .immediateTarget := by
  revert h; cases k <;> decide

end Sys2Proof

namespace Sys2Proof.Machine

variable {i : Instr} {s t : State}

theorem irMnemonic_of_decode (h : decode s.cfg.opcodes s.ir = .ok i) :
    s.irMnemonic = some i.mnemonic := by
  obtain ⟨k, hk, rfl⟩ := decode_eq_ok.mp h
  simpa [State.irMnemonic] using hk

theorem operandOf_ir_of_decode (h : decode s.cfg.opcodes s.ir = .ok i)
    (hm : i.mnemonic.mode ≠ .none) : operandOf s.ir = i.operand := by
  obtain ⟨k, -, rfl⟩ := decode_eq_ok.mp h
  rw [Mnemonic.mnemonic_toInstr] at hm
  rw [Mnemonic.operand_toInstr _ hm]

/-! ### IR after a step -/

/-- IR after an instruction: a taken jump refreshes it from the target, and every other
instruction, and every fault, leaves the latched word (R14, R130, R186). -/
theorem Effect.ir_cases (he : Effect i s t) :
    (∃ x, i.takenTarget s.zf s.nf = some x ∧ t.rs = s.rs ∧ t.ir = s.mem.read x.toNat) ∨
    (t.ir = s.ir ∧ (i.takenTarget s.zf s.nf = none ∨ t.rs = .faulted)) := by
  cases he with
  | taken _ _ x ht => exact .inl ⟨x, ht, rfl, rfl⟩
  | addrOob | targetOob | divZero | exhausted => exact .inr ⟨rfl, .inr rfl⟩
  | untaken _ _ _ ht => exact .inr ⟨rfl, .inl ht⟩
  | acc _ _ _ hm =>
    exact .inr ⟨rfl, .inl (Instr.takenTarget_eq_none _ _
      (Mnemonic.mode_ne_target_of_writesAcc hm))⟩
  | compare _ _ _ hm =>
    exact .inr ⟨rfl, .inl (Instr.takenTarget_eq_none _ _
      (Mnemonic.mode_ne_target_of_writesFlags hm))⟩
  | halt | store | got | hold | out => exact .inr ⟨rfl, .inl rfl⟩

/-- A step that performs `i` is an effect of `i` on the latched state. -/
theorem effect_of_performs (hp : s.Performs i) (h : step s = .next t) :
    Effect i (s.latch s.fetchWord) t := by
  rcases step_cases h with ⟨_, _, _, hn⟩ | ⟨_, _, _, _, hn⟩ | ⟨_, _, _, _, _, hn⟩ |
    ⟨_, _, _, hn⟩ | ⟨j, hj, he, _⟩
  · exact absurd hp (hn i)
  · exact absurd hp (hn i)
  · exact absurd hp (hn i)
  · exact absurd hp (hn i)
  · exact performs_unique hj hp ▸ he

/-- Settles O16, by the two ways an instruction can leave IR (`Effect.ir_cases`). -/
theorem instructionRegisterAfterStep : Obligations.InstructionRegisterAfterStep := by
  intro s t i hp h
  have hcases := (effect_of_performs hp h).ir_cases
  simp only [State.latch_zf, State.latch_nf, State.latch_rs, State.latch_ir,
    State.latch_mem] at hcases
  rcases hcases with ⟨x, hx, hrs, hir⟩ | ⟨hir, hn⟩
  · refine ⟨fun y hy _ => ?_, fun hn => ?_⟩
    · obtain rfl : x = y := Option.some.inj (hx.symm.trans hy)
      exact hir
    · simp [hx, hrs] at hn
  · refine ⟨fun y hy hf => ?_, fun _ => hir⟩
    simp [hy, hf] at hn

/-! ### The fault record and the run record -/

theorem faultRecord_iff_of_not_faulted (h : s.rs ≠ .faulted) :
    s.FaultRecord ↔ s.fcause = .none ∧ s.finfo = 0 := by
  simp [State.FaultRecord, h]

/-- On a fault of the operand, FINFO is the operand field of IR (R182, R183). -/
theorem raise_operand_finfo (hd : decode s.cfg.opcodes s.ir = .ok i)
    (hm : i.mnemonic.mode ≠ .none) (h : s.cfg.memLen ≤ i.operand.toNat) :
    (zext32 i.operand).toNat = (operandOf s.ir).toNat ∧
      s.cfg.memLen ≤ (operandOf s.ir).toNat := by
  rw [operandOf_ir_of_decode hd hm]
  exact ⟨zext32_toNat _, h⟩

/-- How an instruction leaves RS, FCAUSE and FINFO when IR holds its word: HALT halts, a fault
records what R180 tabulates, and everything else leaves the three alone. -/
theorem Effect.outcome_cases (he : Effect i s t) (hd : decode s.cfg.opcodes s.ir = .ok i) :
    (i = .halt ∧ t = s.halt) ∨
    (t.rs = s.rs ∧ t.fcause = s.fcause ∧ t.finfo = s.finfo) ∨
    (t.rs = .faulted ∧ t.FaultRecord) := by
  have hir := irMnemonic_of_decode hd
  cases he with
  | halt => exact .inl ⟨rfl, rfl⟩
  | acc | store | compare | taken | untaken | got | hold | out =>
    exact .inr (.inl ⟨rfl, rfl, rfl⟩)
  | addrOob _ _ h hm =>
    have hop := raise_operand_finfo hd (by rcases hm with e | e <;> simp [e]) h
    exact .inr (.inr ⟨rfl, hop.1, hop.2, _, hir, hm⟩)
  | targetOob _ _ h ht =>
    have hm := Instr.mode_of_takenTarget ht
    have hop := raise_operand_finfo hd (by simp [hm]) h
    exact .inr (.inr ⟨rfl, hop.1, hop.2, _, hir, hm⟩)
  | divZero _ _ hm =>
    exact .inr (.inr ⟨rfl, rfl,
      hm.imp (hir.trans <| congrArg some ·) (hir.trans <| congrArg some ·)⟩)
  | exhausted _ hi hend => exact .inr (.inr ⟨rfl, rfl, hir, hi, hend⟩)

/-- What a step does to RS, FCAUSE and FINFO: nothing happens; it faults and records the fault
as R180 tabulates; HALT stops at its own word; or the step completes and the core runs on. -/
theorem step_outcome_cases (h : step s = .next t) :
    t = s ∨ (t.rs = .faulted ∧ t.FaultRecord) ∨
    (s.Performs .halt ∧ t = (s.latch s.fetchWord).halt) ∨
    (s.enabled = true ∧ t.rs = .running ∧ t.fcause = s.fcause ∧ t.finfo = s.finfo) := by
  rcases step_cases h with ⟨_, ht, _⟩ | ⟨_, hip, rfl, _⟩ | ⟨_, _, hk, rfl, _⟩ | ⟨_, ht, _⟩ |
    ⟨i, hp, he, _⟩
  · exact .inl ht
  · exact .inr (.inl ⟨rfl, rfl, hip⟩)
  · exact .inr (.inl ⟨rfl, rfl, hk⟩)
  · exact .inl ht
  · have ⟨hen, _, hdec, _⟩ := hp
    rcases he.outcome_cases hdec with ⟨rfl, rfl⟩ | ⟨hrs, hc, hf⟩ | hfault
    · exact .inr (.inr (.inl ⟨hp, rfl⟩))
    · exact .inr (.inr (.inr ⟨hen, hrs, hc, hf⟩))
    · exact .inr (.inl hfault)

theorem rs_ne_faulted_of_enabled (h : s.enabled = true) : s.rs ≠ .faulted := by
  rcases (enabled_iff s).mp h with e | e <;> simp [e]

/-- From a core that can step to one that is not FAULTED, the record is kept with FCAUSE and
FINFO (R17). -/
theorem faultRecord_of_completed (hs : s.FaultRecord) (hen : s.enabled = true)
    (hrs : t.rs ≠ .faulted) (hc : t.fcause = s.fcause) (hf : t.finfo = s.finfo) :
    t.FaultRecord := by
  rw [faultRecord_iff_of_not_faulted hrs, hc, hf]
  exact (faultRecord_iff_of_not_faulted (rs_ne_faulted_of_enabled hen)).mp hs

/-- Settles O26: a step that faults writes the record of R180, and any other leaves FCAUSE and
FINFO at the values they have while RS is not FAULTED. -/
theorem stepKeepsFaultRecord : Obligations.StepKeepsFaultRecord := by
  intro s t hs h
  rcases step_outcome_cases h with rfl | ⟨_, ht⟩ | ⟨hp, rfl⟩ | ⟨hen, hrs, hc, hf⟩
  · exact hs
  · exact ht
  · exact faultRecord_of_completed hs hp.1 (by simp) rfl rfl
  · exact faultRecord_of_completed hs hen (by simp [hrs]) hc hf

/-- The run record speaks of READY and HALTED states only. -/
theorem runRecord_of_rs (hready : t.rs ≠ .ready) (hhalted : t.rs ≠ .halted) : t.RunRecord :=
  ⟨fun e => absurd e hready, fun e => absurd e hhalted⟩

/-- HALT leaves IP and memory alone, so it stands at the word it fetched (R79). -/
theorem runRecord_halt_of_performs (hp : s.Performs .halt) :
    (s.latch s.fetchWord).halt.RunRecord := by
  obtain ⟨_, hip, hdec, _⟩ := hp
  exact ⟨nofun, fun _ => ⟨hip, rfl, irMnemonic_of_decode (s := s.latch s.fetchWord) hdec⟩⟩

/-- Settles O27: no step leads to READY, and the only one to HALTED is a HALT performed, which
stands at its own word. -/
theorem stepKeepsRunRecord : Obligations.StepKeepsRunRecord := by
  intro s t hs h
  rcases step_outcome_cases h with rfl | ⟨hrs, _⟩ | ⟨hp, rfl⟩ | ⟨_, hrs, _⟩
  · exact hs
  · exact runRecord_of_rs (by simp [hrs]) (by simp [hrs])
  · exact runRecord_halt_of_performs hp
  · exact runRecord_of_rs (by simp [hrs]) (by simp [hrs])

/-! ### Reset -/

/-- Settles O55: each field is as `State.resetWith` writes it, and an empty memory list reads 0
everywhere (R19). -/
theorem resetValues : Obligations.ResetValues :=
  ⟨fun _ => ⟨fun _ => rfl, rfl, rfl, rfl, rfl, rfl, rfl, rfl, rfl⟩, rfl, rfl⟩

end Sys2Proof.Machine

/-! PROOFS. What the low half of the addressed cell decides (20_memory.md rules R32, R44;
40_step_and_halt.md rule R82), and the hold of an IN without an answer (R75, R150). -/

namespace Sys2Proof.Machine

variable {s : State}

/-! ### The memory-indirect value -/

/-- `Value(ind, opd)` is decided by the low 16 bits of the cell (R32). -/
theorem low16_eq_of_toNat_mod_eq {v w : Word} (h : v.toNat % 65536 = w.toNat % 65536) :
    low16 v = low16 w :=
  BitVec.eq_of_toNat_eq (by rw [low16_toNat, low16_toNat, h])

/-- Reading a value through another memory with the same low half of the cell goes on with the
same value, or raises the same ADDR_OOB. -/
theorem withIndirect_withMem {k k' : Word → State} {m : Memory} {x : Half}
    (hk : ∀ v, k' v = { k v with mem := m })
    (hx : (m.read x.toNat).toNat % 65536 = s.lowHalf x) :
    { s with mem := m }.withIndirect x k' = { s.withIndirect x k with mem := m } := by
  have hv : low16 (m.read x.toNat) = low16 (s.mem.read x.toNat) := low16_eq_of_toNat_mod_eq hx
  by_cases hb : x.toNat < s.cfg.memLen
  · simp [State.withIndirect, State.withAddress, hb, hv, hk]
  · simp [State.withIndirect, State.withAddress, hb, State.raise]

theorem divide_withMem (s : State) (m : Memory) (v : Word) :
    { s with mem := m }.divide v = { s.divide v with mem := m } := by
  unfold State.divide
  split <;> rfl

/-- An instruction that reads a value reads memory in one place, its operand's cell: what it
does with the value is the same over every memory. -/
theorem exec_of_mode_indirectValue {i : Instr} (h : i.mnemonic.mode = .indirectValue) :
    ∃ k : State → Word → State,
      (∀ s m v, k { s with mem := m } v = { k s v with mem := m }) ∧
      ∀ s, exec i s = .next (s.withIndirect i.operand (k s)) := by
  cases i with
  | load => exact ⟨State.finish, fun _ _ _ => rfl, fun _ => rfl⟩
  | add => exact ⟨fun s v => s.finish (aluAdd s.acc v), fun _ _ _ => rfl, fun _ => rfl⟩
  | sub => exact ⟨fun s v => s.finish (aluSub s.acc v), fun _ _ _ => rfl, fun _ => rfl⟩
  | mul => exact ⟨fun s v => s.finish (aluMul s.acc v), fun _ _ _ => rfl, fun _ => rfl⟩
  | div => exact ⟨State.divide, divide_withMem, fun _ => rfl⟩
  | mod => exact ⟨fun s v => s.finish (aluMod s.acc v), fun _ _ _ => rfl, fun _ => rfl⟩
  | cmp =>
    exact ⟨fun s v => (s.setFlags (compareFlags s.acc v)).advance, fun _ _ _ => rfl, fun _ => rfl⟩
  | _ => cases h

/-- Settles O42: the value read is the same, and what the instruction does with it does not
read memory again. -/
theorem upperHalfNeverReachesTheAlu : Obligations.UpperHalfNeverReachesTheAlu := by
  intro i s t m hm hx h
  obtain ⟨k, hk, hexec⟩ := exec_of_mode_indirectValue hm
  rw [hexec] at h ⊢
  obtain rfl : s.withIndirect i.operand (k s) = t := Host.Outcome.next.inj h
  rw [withIndirect_withMem (hk s m) hx]

/-! ### The hold -/

theorem answer_eq_notReady_iff :
    s.answer = .notReady ↔ s.input = [] ∧ s.inputEnded = false := by
  rcases answer_cases s with ⟨x, rest, hi, ha⟩ | ⟨hi, he, ha⟩ | ⟨hi, he, ha⟩ <;> simp [*]

/-- When a `Step` is a hold (R75, R150). -/
theorem held_iff : s.held = true ↔ s.enabled = true ∧ s.ip.toNat < s.cfg.memLen ∧
    decode s.cfg.opcodes s.fetchWord = .ok .inp ∧ s.answer = .notReady := by
  cases hd : decode s.cfg.opcodes s.fetchWord <;>
    simp [State.held, State.holds, hd, and_assoc]

theorem step_of_held (h : s.held = true) : step s = .next s := by
  obtain ⟨hen, hip, hd, ha⟩ := held_iff.mp h
  exact step_of_ended (by simp [beginStep, State.holds, hen, hip, hd, ha])

theorem stepOutcome_of_held (h : s.held = true) : stepOutcome s = .hold := if_pos h

theorem supply_of_not_ended (x : Word) (h : s.inputEnded = false) :
    s.supply x = { s with input := s.input ++ [x] } :=
  if_neg (by simp [h])

theorem answer_supply_ne_notReady (s : State) (x : Word) : (s.supply x).answer ≠ .notReady := by
  rw [Ne, answer_eq_notReady_iff]
  cases he : s.inputEnded <;> simp [State.supply, he]

theorem answer_endInput_ne_notReady (s : State) : s.endInput.answer ≠ .notReady := by
  simp [answer_eq_notReady_iff, State.endInput]

/-- Settles O12: the step is a hold, and each of the two moves of the input stream gives IN an
answer while the fetch stays what it was. -/
theorem heldInputChangesNothing : Obligations.HeldInputChangesNothing := by
  intro s hrs hip hd hi he
  have hen : s.enabled = true := (enabled_iff s).mpr hrs
  have hheld : s.held = true := held_iff.mpr ⟨hen, hip, hd, answer_eq_notReady_iff.mpr ⟨hi, he⟩⟩
  refine ⟨step_of_held hheld, stepOutcome_of_held hheld, fun x => ?_, ?_⟩
  · have hans := answer_supply_ne_notReady s x
    rw [supply_of_not_ended x he] at hans ⊢
    exact ⟨hen, hip, hd, fun hn => hans hn.2⟩
  · exact ⟨hen, hip, hd, fun hn => answer_endInput_ne_notReady s hn.2⟩

end Sys2Proof.Machine

/-! PROOFS. Encoding and decoding as two inverse directions under a legal opcode map, what the
operand bits decide, and how many opcodes are unknown (30_encoding.md rules R51 to R58). -/

namespace Sys2Proof

/-! ### The two fields of a word -/

/-- The opcode field by the source's own shift (R51). -/
theorem opcodeOf_eq_shift (w : Word) : opcodeOf w = (w >>> 16).setWidth 16 := by
  apply BitVec.eq_of_toNat_eq
  simp [opcodeOf, BitVec.extractLsb'_toNat]

/-- The operand field by the source's own mask (R51). -/
theorem operandOf_eq_mask (w : Word) : operandOf w = (w &&& 0xFFFF#32).setWidth 16 := by
  apply BitVec.eq_of_toNat_eq
  rw [operandOf_toNat, BitVec.toNat_setWidth, BitVec.toNat_and]
  simp [Nat.and_two_pow_sub_one_eq_mod _ 16]

/-- The encoder by the source's own shift and or (R53). -/
theorem joinFields_eq_shift_or (o x : Half) :
    joinFields o x = (o.setWidth 32 <<< 16) ||| x.setWidth 32 := by
  rw [joinFields, BitVec.append_def, BitVec.shiftLeftZeroExtend_eq, BitVec.setWidth'_eq]

@[simp] theorem joinFields_opcodeOf_operandOf (w : Word) :
    joinFields (opcodeOf w) (operandOf w) = w := by
  apply BitVec.eq_of_toNat_eq
  rw [joinFields_toNat, opcodeOf_toNat, operandOf_toNat]
  omega

/-- Settles O2: both fields and the join are the source's shift, mask and or, and the join and
the fields undo each other. -/
theorem fieldsPartitionWord : Obligations.FieldsPartitionWord := by
  refine ⟨fun w => ⟨opcodeOf_eq_shift w, operandOf_eq_mask w, ?_⟩, fun o x =>
    ⟨joinFields_eq_shift_or o x, opcodeOf_joinFields o x, operandOf_joinFields o x⟩⟩
  rw [← joinFields_eq_shift_or, joinFields_opcodeOf_operandOf]

/-! ### Decode after encode -/

@[simp] theorem opcodeOf_encode (m : OpcodeMap) (i : Instr) :
    opcodeOf (encode m i) = m.opcode i.mnemonic :=
  opcodeOf_joinFields ..

@[simp] theorem operandOf_encode (m : OpcodeMap) (i : Instr) :
    operandOf (encode m i) = i.operand :=
  operandOf_joinFields ..

/-- Mnemonic and operand are all there is to an instruction (R59). -/
@[simp] theorem Instr.toInstr_mnemonic_operand (i : Instr) :
    i.mnemonic.toInstr i.operand = i := by
  cases i <;> rfl

/-- Settles O3: the lookup finds the mnemonic, as no other has its opcode (R56 b), and the word
holds the operand. -/
theorem decodeEncodeAgree : Obligations.DecodeEncodeAgree := by
  intro m i hm
  have hk : m.mnemonicFor (opcodeOf (encode m i)) = some i.mnemonic :=
    (OpcodeMap.mnemonicFor_eq_some hm).mpr (opcodeOf_encode m i).symm
  exact decode_eq_ok.mpr ⟨i.mnemonic, hk, by simp⟩

/-! ### Encode after decode, and the arity -/

theorem Mnemonic.arity_eq_zero_iff {k : Mnemonic} : k.arity = 0 ↔ k.mode = .none := by
  simp [Mnemonic.arity]

theorem Mnemonic.arity_eq_one_iff {k : Mnemonic} : k.arity = 1 ↔ k.mode ≠ .none := by
  simp [Mnemonic.arity]

/-- A mnemonic of arity 0 is one instruction, whatever the operand field (R54, R58). -/
theorem Mnemonic.toInstr_eq_of_arity_zero {k : Mnemonic} (h : k.arity = 0) (x y : Half) :
    k.toInstr x = k.toInstr y := by
  cases k with
  | halt | inp | out => rfl
  | _ => cases h

/-- Settles O4: the mnemonic found has the word's opcode, and under arity 1 the instruction
keeps the word's operand. -/
theorem decodedWordEncodesBack : Obligations.DecodedWordEncodesBack := by
  intro m w i h
  obtain ⟨k, hk, rfl⟩ := decode_eq_ok.mp h
  have ho : m.opcode k = opcodeOf w := OpcodeMap.opcode_of_mnemonicFor hk
  refine ⟨by simpa using ho, fun ha => ?_⟩
  rw [Mnemonic.mnemonic_toInstr, Mnemonic.arity_eq_one_iff] at ha
  rw [encode, Mnemonic.mnemonic_toInstr, Mnemonic.operand_toInstr _ ha, ho,
    joinFields_opcodeOf_operandOf]

/-! ### What the operand bits decide -/

theorem decode_joinFields_of_known {m : OpcodeMap} {o : Half} {k : Mnemonic}
    (h : m.mnemonicFor o = some k) (x : Half) :
    decode m (joinFields o x) = .ok (k.toInstr x) :=
  decode_eq_ok.mpr ⟨k, by simpa using h, by simp⟩

theorem decode_joinFields_of_unknown {m : OpcodeMap} {o : Half}
    (h : m.mnemonicFor o = none) (x : Half) :
    decode m (joinFields o x) = .error (.unknownOpcode o) :=
  decode_eq_error.mpr (by simpa using h)

/-- Settles O5, by whether the map has the opcode. -/
theorem operandBitsNeverSelect : Obligations.OperandBitsNeverSelect := by
  intro m o x y
  refine ⟨?_, (decode_joinFields_of_unknown · x), fun k hk ha => ?_⟩
  · cases h : m.mnemonicFor o with
    | none => rw [decode_joinFields_of_unknown h]; rfl
    | some k =>
      rw [decode_joinFields_of_known h]
      exact congrArg some (Mnemonic.mnemonic_toInstr k x)
  · rw [decode_joinFields_of_known hk, decode_joinFields_of_known hk,
      Mnemonic.toInstr_eq_of_arity_zero ha x y]

/-! ### The opcodes a map knows -/

/-- The opcode numbers a map gives its mnemonics, in the order of R55. -/
def OpcodeMap.known (m : OpcodeMap) : List Nat :=
  Mnemonic.all.map fun k => (m.opcode k).toNat

theorem OpcodeMap.length_known (m : OpcodeMap) : m.known.length = 25 :=
  List.length_map ..

theorem OpcodeMap.nodup_known {m : OpcodeMap} (h : m.wf = true) : m.known.Nodup :=
  List.Nodup.map_on (fun _ _ _ _ e => opcode_injective h (BitVec.eq_of_toNat_eq e)) (by decide)

/-- A number is one of the known opcodes exactly when it is an opcode value that the lookup
finds. -/
theorem OpcodeMap.mem_known_iff {m : OpcodeMap} {n : Nat} :
    n ∈ m.known ↔ n < 65536 ∧ (m.mnemonicFor (BitVec.ofNat 16 n)).isSome = true := by
  simp only [known, List.mem_map, mnemonicFor, List.find?_isSome, beq_iff_eq]
  constructor
  · rintro ⟨k, hk, rfl⟩
    exact ⟨(m.opcode k).isLt, k, hk, by simp⟩
  · rintro ⟨hn, k, hk, e⟩
    exact ⟨k, hk, by simp [e, Nat.mod_eq_of_lt hn]⟩

/-- The opcode values the lookup finds are the known ones, each counted once. -/
theorem OpcodeMap.countP_isSome {m : OpcodeMap} (h : m.wf = true) :
    ((List.range 65536).countP fun n => (m.mnemonicFor (BitVec.ofNat 16 n)).isSome) = 25 := by
  rw [List.countP_eq_length_filter, ← m.length_known]
  refine List.Perm.length_eq ((List.perm_ext_iff_of_nodup (List.nodup_range.filter _)
    (nodup_known h)).mpr fun n => ?_)
  rw [List.mem_filter, List.mem_range, mem_known_iff]

/-- Settles O6: of the 65536 values the 25 known ones are found, and the rest are unknown. -/
theorem unknownOpcodesCounted : Obligations.UnknownOpcodesCounted := by
  intro m hm
  have hsplit := List.length_eq_countP_add_countP (l := List.range 65536)
    fun n => (m.mnemonicFor (BitVec.ofNat 16 n)).isSome
  simp only [List.length_range, OpcodeMap.countP_isSome hm, Bool.not_eq_true,
    Bool.decide_eq_false, Option.not_isSome] at hsplit
  omega

end Sys2Proof

/-! PROOFS. That no move changes the configuration (R56 d), and that the forms which address no
memory do not depend on it (20_memory.md section 2, R58). -/

namespace Sys2Proof.Machine

variable {i : Instr} {s t : State}

/-! ### The configuration -/

theorem Effect.cfg_eq (he : Effect i s t) : t.cfg = s.cfg := by
  cases he <;> rfl

theorem step_cfg_eq (h : step s = .next t) : t.cfg = s.cfg := by
  rcases step_cases h with ⟨_, rfl, _⟩ | ⟨_, _, rfl, _⟩ | ⟨_, _, _, rfl, _⟩ | ⟨_, rfl, _⟩ |
    ⟨_, _, he, _⟩
  · rfl
  · rfl
  · rfl
  · rfl
  · exact he.cfg_eq

@[simp] theorem State.loadWord_cfg (s : State) (a : Nat) (w : Word) :
    (s.loadWord a w).cfg = s.cfg := by
  unfold State.loadWord
  split <;> rfl

@[simp] theorem State.supply_cfg (s : State) (x : Word) : (s.supply x).cfg = s.cfg := by
  unfold State.supply
  split <;> rfl

@[simp] theorem State.attach_cfg (s : State) (input : List Word) (ended : Bool) :
    (s.attach input ended).cfg = s.cfg := by
  unfold State.attach
  split <;> rfl

/-- Settles O22, move by move. -/
theorem configurationNeverChanges : Obligations.ConfigurationNeverChanges := by
  intro mv s t h
  cases mv with
  | step => exact step_cfg_eq h
  | reset | snapshot | endInput => cases h; rfl
  | loadWord a w => cases h; exact s.loadWord_cfg a w
  | supply x => cases h; exact s.supply_cfg x
  | attach input ended => cases h; exact s.attach_cfg input ended

/-! ### The forms that address no memory -/

/-- The environment's answer is read from the streams alone, so IN does not see memory. -/
theorem execIn_withMem (m : Memory) (h : execIn s = .next t) :
    execIn { s with mem := m } = .next { t with mem := m } := by
  have hans : { s with mem := m }.answer = s.answer := rfl
  unfold execIn at h ⊢
  rw [hans]
  cases ha : s.answer with
  | got | exhausted | notReady => rw [ha] at h; cases h; rfl

/-- Settles O43: the arity-0 and immediate-value instructions do not read the field `mem`. -/
theorem immediateFormsIgnoreMemory : Obligations.ImmediateFormsIgnoreMemory := by
  intro i s t m hm h
  cases i with
  | halt | out | loadi | addi | subi | muli | modi | cmpi => cases h; rfl
  | divi x => cases h; exact congrArg Host.Outcome.next (divide_withMem s m _)
  | inp => exact execIn_withMem m h
  | _ => rcases hm with e | e <;> cases e

end Sys2Proof.Machine

/-! PROOFS. One step read from outside: the instruction it performs, the run state and the
outcome it ends with, the pc it leaves, and two short programs (40_step_and_halt.md rules R70
to R83). -/

namespace Sys2Proof.Machine

variable {i : Instr} {s t : State}

/-! ### The front of a step -/

/-- An instruction performed runs on the latched state (R72, R73, R75). -/
theorem step_of_performs (hp : s.Performs i) : step s = exec i (s.latch s.fetchWord) := by
  obtain ⟨hen, hip, hd, hn⟩ := hp
  change decode s.cfg.opcodes s.fetchWord = .ok i at hd
  have hh : s.holds i = false := by simpa [State.holds] using hn
  exact step_of_run (by simp [beginStep, hen, hip, hd, hh])

/-- Settles O7: the latch is the two writes of the statement. -/
theorem stepRunsDecodedInstruction : Obligations.StepRunsDecodedInstruction :=
  fun _ _ hp => step_of_performs hp

theorem step_of_stopped (h : s.rs = .halted ∨ s.rs = .faulted) : step s = .next s := by
  have hen : s.enabled = false := by rcases h with e | e <;> simp [State.enabled, e]
  exact step_of_ended (by simp [beginStep, hen])

/-- Settles O9: the front of the step ends at once, as the core is not enabled. -/
theorem stoppedCoreIgnoresStep : Obligations.StoppedCoreIgnoresStep :=
  fun _ h => step_of_stopped h

/-- Settles O31: HALT is the one write of `State.halt`. -/
theorem haltStopsInPlace : Obligations.HaltStopsInPlace :=
  fun _ => rfl

/-! ### RS after a step -/

theorem Effect.eq_halt (he : Effect .halt s t) : t = s.halt := by
  cases he with
  | halt => rfl
  | acc _ _ _ hm | compare _ _ _ hm | untaken _ _ hm => cases hm
  | taken _ _ _ ht | targetOob _ _ _ ht => cases ht
  | addrOob _ _ _ hm | divZero _ _ hm => rcases hm with e | e <;> cases e

/-- HALT halts; any other instruction leaves RS alone or faults (R79, R81). -/
theorem Effect.rs_cases (he : Effect i s t) :
    (i = .halt ∧ t.rs = .halted) ∨ (i ≠ .halt ∧ (t.rs = s.rs ∨ t.rs = .faulted)) := by
  by_cases hi : i = .halt
  · subst hi
    exact .inl ⟨rfl, by rw [he.eq_halt, State.halt_rs]⟩
  · refine .inr ⟨hi, ?_⟩
    cases he with
    | halt => exact absurd rfl hi
    | acc | store | compare | taken | untaken | got | hold | out => exact .inl rfl
    | addrOob | targetOob | divZero | exhausted => exact .inr rfl

/-- A step that occurs performs HALT and ends HALTED, performs another instruction and ends
RUNNING, or faults (R77, R81). -/
theorem step_rs_cases (hrs : s.rs = .ready ∨ s.rs = .running) (hheld : s.held = false)
    (h : step s = .next t) :
    (s.Performs .halt ∧ t.rs = .halted) ∨
    ((∃ i, i ≠ .halt ∧ s.Performs i) ∧ ¬ s.Performs .halt ∧ t.rs = .running) ∨
    (¬ s.Performs .halt ∧ t.rs = .faulted) := by
  have hen : s.enabled = true := (enabled_iff s).mpr hrs
  rcases step_cases h with ⟨hoff, _⟩ | ⟨_, _, rfl, _, hn⟩ | ⟨_, _, _, rfl, _, hn⟩ |
    ⟨_, _, hon, _⟩ | ⟨i, hp, he, _⟩
  · simp [hen] at hoff
  · exact .inr (.inr ⟨hn _, rfl⟩)
  · exact .inr (.inr ⟨hn _, rfl⟩)
  · simp [hheld] at hon
  · rcases he.rs_cases with ⟨rfl, hhalt⟩ | ⟨hi, hrun | hfault⟩
    · exact .inl ⟨hp, hhalt⟩
    · exact .inr (.inl ⟨⟨i, hi, hp⟩, fun hp' => hi (performs_unique hp hp'), hrun⟩)
    · exact .inr (.inr ⟨fun hp' => hi (performs_unique hp hp'), hfault⟩)

@[simp] theorem State.loadWord_rs (s : State) (a : Nat) (w : Word) :
    (s.loadWord a w).rs = s.rs := by
  unfold State.loadWord
  split <;> rfl

@[simp] theorem State.supply_rs (s : State) (x : Word) : (s.supply x).rs = s.rs := by
  unfold State.supply
  split <;> rfl

@[simp] theorem State.attach_rs (s : State) (input : List Word) (ended : Bool) :
    (s.attach input ended).rs = s.rs := by
  unfold State.attach
  split <;> rfl

/-- Only reset and a step write RS (R81). -/
theorem transact_rs_eq {mv : Move} (hreset : mv ≠ .reset) (hstep : mv ≠ .step)
    (h : transact mv s = .next t) : t.rs = s.rs := by
  cases mv with
  | reset => exact absurd rfl hreset
  | step => exact absurd rfl hstep
  | snapshot | endInput => cases h; rfl
  | loadWord a w => cases h; exact s.loadWord_rs a w
  | supply x => cases h; exact s.supply_rs x
  | attach input ended => cases h; exact s.attach_rs input ended

theorem eq_of_step_eq_self (hs : step s = .next s) (h : step s = .next t) : t = s :=
  Host.Outcome.next.inj (h.symm.trans hs)

/-- Settles O13, row by row of the table of R81. -/
theorem runStateTransitions : Obligations.RunStateTransitions := by
  intro mv s t h
  refine ⟨?_, fun hreset hstep => transact_rs_eq hreset hstep h, ?_, ?_, ?_⟩
  · rintro rfl
    cases h
    rfl
  · rintro rfl hstop
    rw [eq_of_step_eq_self (step_of_stopped hstop) h]
  · rintro rfl hheld
    rw [eq_of_step_eq_self (step_of_held hheld) h]
  · rintro rfl hrs hheld
    rcases step_rs_cases hrs hheld h with ⟨hp, ht⟩ | ⟨hother, hn, ht⟩ | ⟨hn, ht⟩
    · simp [ht, hp]
    · simp [ht, hn, hother]
    · simp [ht, hn]

/-! ### The outcome of a step -/

theorem stepOutcome_of_not_held (hheld : s.held = false) (h : step s = .next t) :
    stepOutcome s = t.report := by
  simp [stepOutcome, hheld, h]

/-- Settles O14: a hold is one by definition, and of any other step the outcome is the report
of the state it ends in. -/
theorem outcomeReadFromRunState : Obligations.OutcomeReadFromRunState := by
  intro s t hrs h
  refine ⟨fun hheld => ⟨stepOutcome_of_held hheld, eq_of_step_eq_self (step_of_held hheld) h⟩,
    fun hheld => ?_⟩
  rw [stepOutcome_of_not_held hheld h]
  rcases step_rs_cases hrs hheld h with ⟨_, ht⟩ | ⟨_, _, ht⟩ | ⟨_, ht⟩ <;>
    simp [State.report, ht]

/-! ### The pc after a step -/

/-- The pc after an instruction other than HALT that completes: the target of a taken jump,
else one more (R74, R130, R131). -/
theorem Effect.ip_cases (he : Effect i s t) (hi : i ≠ .halt) (hf : t.rs ≠ .faulted)
    (hn : ¬ (i = .inp ∧ s.answer = .notReady)) :
    (∃ x, i.takenTarget s.zf s.nf = some x ∧ t.ip = zext32 x) ∨
    (i.takenTarget s.zf s.nf = none ∧ t.ip = s.ip + 1) := by
  cases he with
  | halt => exact absurd rfl hi
  | hold _ ha => exact absurd ⟨rfl, ha⟩ hn
  | addrOob | targetOob | divZero | exhausted => exact absurd rfl hf
  | taken _ _ x ht => exact .inl ⟨x, ht, rfl⟩
  | untaken _ _ _ ht => exact .inr ⟨ht, rfl⟩
  | acc _ _ _ hm =>
    exact .inr ⟨Instr.takenTarget_eq_none _ _ (Mnemonic.mode_ne_target_of_writesAcc hm), rfl⟩
  | compare _ _ _ hm =>
    exact .inr ⟨Instr.takenTarget_eq_none _ _ (Mnemonic.mode_ne_target_of_writesFlags hm), rfl⟩
  | store | got | out => exact .inr ⟨rfl, rfl⟩

/-- Settles O15: HALT leaves the pc, and every other instruction that completes is a taken jump
or advances (`Effect.ip_cases`). -/
theorem trailingIncrement : Obligations.TrailingIncrement := by
  intro s t i hp h hf
  have he := effect_of_performs hp h
  by_cases hi : i = .halt
  · subst hi
    rw [he.eq_halt]
    exact ⟨fun _ => rfl, nofun, fun hn => absurd rfl hn⟩
  · obtain ⟨_, _, _, hn⟩ := hp
    refine ⟨fun e => absurd e hi, ?_⟩
    have hcases := he.ip_cases hi hf hn
    rw [State.latch_zf, State.latch_nf, State.latch_ip] at hcases
    rcases hcases with ⟨x, hx, hip⟩ | ⟨hx, hip⟩
    · simp [hx, hip, zext32_toNat]
    · simp [hx, hip]

/-! ### STORE, then LOAD -/

theorem exec_store_of_lt {x : Half} (h : x.toNat < s.cfg.memLen) :
    exec (.store x) s = .next (s.writeCell x.toNat s.acc).advance :=
  congrArg Host.Outcome.next (if_pos h)

theorem exec_load_of_lt {x : Half} (h : x.toNat < s.cfg.memLen) :
    exec (.load x) s = .next (s.finish (low16 (s.mem.read x.toNat))) :=
  congrArg Host.Outcome.next (if_pos h)

/-- Settles O35: the cell holds all of ACC, and LOAD takes the low half of it. -/
theorem storedWordReadsBackLowHalf : Obligations.StoredWordReadsBackLowHalf := by
  intro x s hx
  exact ⟨_, _, exec_store_of_lt hx, exec_load_of_lt hx, by simp [low16_toNat]⟩

/-! ### A program that is one HALT -/

/-- Booting one word writes it to cell 0 of the reset core (R62, R212). -/
theorem boot_singleton (w : Word) (h : 1 ≤ s.cfg.memLen) :
    s.boot [w] = s.resetCore.writeCell 0 w :=
  if_pos ⟨rfl, h⟩

/-- Settles O59: the step performs the HALT in cell 0, and HALT moves no register but RS. -/
theorem haltOnlyProgramStops : Obligations.HaltOnlyProgramStops := by
  intro s w hlen hw
  rw [boot_singleton w hlen]
  have hword : (s.resetCore.writeCell 0 w).fetchWord = w := Memory.read_write_self ..
  have hp : (s.resetCore.writeCell 0 w).Performs .halt :=
    ⟨rfl, hlen, (congrArg (decode s.cfg.opcodes) hword).trans hw, nofun⟩
  exact ⟨_, step_of_performs hp, rfl, rfl, rfl, rfl, rfl, hword⟩

end Sys2Proof.Machine

/-! PROOFS. What LOAD, LOADI and STORE do (41_load_store.md rules R90 to R92), and the writers of
memory (10_state.md rule R11). -/

namespace Sys2Proof.Machine

variable {i : Instr} {s t : State}

/-! ### Loads and the store -/

theorem exec_load_of_ge {x : Half} (h : s.cfg.memLen ≤ x.toNat) :
    exec (.load x) s = .next (s.raise .addrOob (zext32 x)) :=
  congrArg Host.Outcome.next (if_neg (Nat.not_lt.mpr h))

theorem exec_store_of_ge {x : Half} (h : s.cfg.memLen ≤ x.toNat) :
    exec (.store x) s = .next (s.raise .addrOob (zext32 x)) :=
  congrArg Host.Outcome.next (if_neg (Nat.not_lt.mpr h))

theorem exec_loadi (x : Half) (s : State) : exec (.loadi x) s = .next (s.finish (zext32 x)) :=
  rfl

/-- A state whose memory is a write to that of `s` differs from `s` in one cell (R37). -/
theorem wroteCell_of_mem_eq {a : Nat} {v : Word} (h : t.mem = s.mem.write a v) :
    s.WroteCell t a v := by
  intro b
  rw [h, Memory.read_write]

theorem sameMemory_of_mem_eq (h : t.mem = s.mem) : s.SameMemory t :=
  fun a => congrArg (Memory.read · a) h

/-- Settles O32: in range the value is `low16` of the cell, else ADDR_OOB is raised. -/
theorem loadTakesLowHalf : Obligations.LoadTakesLowHalf :=
  fun _ _ => ⟨fun hx => ⟨_, low16_toNat _, exec_load_of_lt hx⟩, exec_load_of_ge⟩

/-- Settles O33: the value is `zext32` of the operand. -/
theorem loadiZeroExtends : Obligations.LoadiZeroExtends :=
  fun x s => ⟨_, zext32_toNat x, exec_loadi x s⟩

/-- Settles O34: in range STORE is one write of ACC and the increment, else ADDR_OOB is raised. -/
theorem storeWritesOneWholeCell : Obligations.StoreWritesOneWholeCell :=
  fun _ _ => ⟨fun hx => ⟨_, exec_store_of_lt hx, wroteCell_of_mem_eq rfl, rfl⟩, exec_store_of_ge⟩

/-! ### The writers of memory -/

/-- Of all instructions STORE alone writes memory, and only a cell that exists (R11, R92). -/
theorem Effect.mem_cases (he : Effect i s t) :
    (∃ x, i = .store x ∧ x.toNat < s.cfg.memLen ∧ t.mem = s.mem.write x.toNat s.acc) ∨
    t.mem = s.mem := by
  cases he with
  | store x _ hx => exact .inl ⟨x, rfl, hx, rfl⟩
  | halt | acc | compare | taken | untaken | got | hold | out => exact .inr rfl
  | addrOob | targetOob | divZero | exhausted => exact .inr rfl

/-- A step writes memory only by performing a STORE whose address exists (R11). -/
theorem step_mem_cases (h : step s = .next t) :
    (∃ x, s.Performs (.store x) ∧ x.toNat < s.cfg.memLen ∧
      t.mem = s.mem.write x.toNat s.acc) ∨
    t.mem = s.mem := by
  rcases step_cases h with ⟨_, rfl, _⟩ | ⟨_, _, rfl, _⟩ | ⟨_, _, _, rfl, _⟩ | ⟨_, rfl, _⟩ |
    ⟨_, hp, he, _⟩
  · exact .inr rfl
  · exact .inr rfl
  · exact .inr rfl
  · exact .inr rfl
  · rcases he.mem_cases with ⟨x, rfl, hx, hmem⟩ | hmem
    · exact .inl ⟨x, hp, hx, hmem⟩
    · exact .inr hmem

/-- LoadWord is accepted while READY for a cell that exists, else it is refused (R162). -/
theorem loadWord_cases (s : State) (a : Nat) (w : Word) :
    (s.rs = .ready ∧ a < s.cfg.memLen ∧ s.loadWord a w = s.writeCell a w) ∨
    s.loadWord a w = s := by
  unfold State.loadWord
  split
  · next h => exact .inl ⟨h.1, h.2, rfl⟩
  · exact .inr rfl

@[simp] theorem State.supply_mem (s : State) (x : Word) : (s.supply x).mem = s.mem := by
  unfold State.supply
  split <;> rfl

@[simp] theorem State.attach_mem (s : State) (input : List Word) (ended : Bool) :
    (s.attach input ended).mem = s.mem := by
  unfold State.attach
  split <;> rfl

/-- Settles O19, move by move: the writers are reset, an accepted LoadWord, and the STORE of a
step. -/
theorem onlyStoreLoaderAndResetWriteMemory : Obligations.OnlyStoreLoaderAndResetWriteMemory := by
  intro mv s t h
  cases mv with
  | reset => cases h; exact .inl ⟨rfl, fun _ => rfl⟩
  | loadWord a w =>
    cases h
    rcases loadWord_cases s a w with ⟨hrs, ha, e⟩ | e
    · exact .inr (.inl ⟨a, w, rfl, hrs, ha, wroteCell_of_mem_eq (congrArg State.mem e)⟩)
    · exact .inr (.inr (.inr (sameMemory_of_mem_eq (congrArg State.mem e))))
  | step =>
    rcases step_mem_cases h with ⟨x, hp, hx, hmem⟩ | hmem
    · exact .inr (.inr (.inl ⟨x, rfl, hp, hx, wroteCell_of_mem_eq hmem⟩))
    · exact .inr (.inr (.inr (sameMemory_of_mem_eq hmem)))
  | snapshot | endInput => cases h; exact .inr (.inr (.inr (sameMemory_of_mem_eq rfl)))
  | supply x => cases h; exact .inr (.inr (.inr (sameMemory_of_mem_eq (s.supply_mem x))))
  | attach input ended =>
    cases h
    exact .inr (.inr (.inr (sameMemory_of_mem_eq (s.attach_mem input ended))))

end Sys2Proof.Machine

/-! PROOFS. What ADD, SUB, MUL, DIV, MOD and their immediate forms do (42_arithmetic.md rules
R101 to R114). Results are stated over the integers: `n` is the value of the operand, which is
never negative (R82). -/

namespace Sys2Proof.Machine

variable {s : State} {i j : Instr} {x : Half} {acc v : Word} {n : Nat}

/-! ### The ten instructions as operations on the state (R101 to R110) -/

theorem exec_add (x : Half) (s : State) :
    exec (.add x) s = .next (s.withIndirect x fun v => s.finish (aluAdd s.acc v)) :=
  rfl

theorem exec_addi (x : Half) (s : State) :
    exec (.addi x) s = .next (s.finish (aluAdd s.acc (zext32 x))) :=
  rfl

theorem exec_sub (x : Half) (s : State) :
    exec (.sub x) s = .next (s.withIndirect x fun v => s.finish (aluSub s.acc v)) :=
  rfl

theorem exec_subi (x : Half) (s : State) :
    exec (.subi x) s = .next (s.finish (aluSub s.acc (zext32 x))) :=
  rfl

theorem exec_mul (x : Half) (s : State) :
    exec (.mul x) s = .next (s.withIndirect x fun v => s.finish (aluMul s.acc v)) :=
  rfl

theorem exec_muli (x : Half) (s : State) :
    exec (.muli x) s = .next (s.finish (aluMul s.acc (zext32 x))) :=
  rfl

theorem exec_div (x : Half) (s : State) :
    exec (.div x) s = .next (s.withIndirect x fun v => s.divide v) :=
  rfl

theorem exec_divi (x : Half) (s : State) :
    exec (.divi x) s = .next (s.divide (zext32 x)) :=
  rfl

theorem exec_mod (x : Half) (s : State) :
    exec (.mod x) s = .next (s.withIndirect x fun v => s.finish (aluMod s.acc v)) :=
  rfl

theorem exec_modi (x : Half) (s : State) :
    exec (.modi x) s = .next (s.finish (aluMod s.acc (zext32 x))) :=
  rfl

/-! ### The value of the operand -/

theorem signed_low16_read (s : State) (x : Half) :
    signed (low16 (s.mem.read x.toNat)) = s.lowHalf x :=
  signed_low16 _

theorem eq_zero_iff_of_signed (hv : signed v = n) : v = 0 ↔ n = 0 := by
  rw [← BitVec.toInt_inj, BitVec.ofNat_eq_ofNat, BitVec.toInt_zero, ← signed, hv,
    Int.natCast_eq_zero]

/-- A memory-indirect form in range goes on with the low half of the cell (R82). -/
theorem exec_of_withIndirect_of_lt {k : Word → State}
    (he : exec i s = .next (s.withIndirect x k)) (hx : x.toNat < s.cfg.memLen) :
    exec i s = .next (k (low16 (s.mem.read x.toNat))) :=
  he.trans (congrArg Host.Outcome.next (if_pos hx))

/-- A memory-indirect form out of range raises ADDR_OOB, whatever the cell (R114, R182). -/
theorem exec_of_withIndirect_of_ge {k : Word → State}
    (he : exec i s = .next (s.withIndirect x k)) (hx : s.cfg.memLen ≤ x.toNat) :
    exec i s = .next (s.raise .addrOob (zext32 x)) :=
  he.trans (congrArg Host.Outcome.next (if_neg (Nat.not_lt.mpr hx)))

/-! ### Sum, difference and product, wrapped (R111) -/

/-- The immediate form `i` and the memory-indirect form `j` of an integer operation that the ALU
wraps: what ACC becomes, and ADDR_OOB. -/
theorem exec_wrapped_forms (op : Int → Int → Int)
    (himm : exec i s = .next (s.finish (wrap32 (op (signed s.acc) (signed (zext32 x))))))
    (hind : exec j s =
      .next (s.withIndirect x fun v => s.finish (wrap32 (op (signed s.acc) (signed v))))) :
    (∃ r : Word, (r.toNat : Int) = op s.acc.toInt x.toNat % 2 ^ 32 ∧
      exec i s = .next (s.finish r)) ∧
    (x.toNat < s.cfg.memLen →
      ∃ r : Word, (r.toNat : Int) = op s.acc.toInt (s.lowHalf x) % 2 ^ 32 ∧
        exec j s = .next (s.finish r)) ∧
    (s.cfg.memLen ≤ x.toNat → exec j s = .next (s.raise .addrOob (zext32 x))) := by
  have hlt := exec_of_withIndirect_of_lt hind
  refine ⟨⟨_, ?_, himm⟩, fun hx => ⟨_, ?_, hlt hx⟩,
    exec_of_withIndirect_of_ge hind⟩
  · rw [wrap32_toNat, signed_zext32, signed]
  · rw [wrap32_toNat, signed_low16_read, signed]

/-- Settles O37: both forms wrap the sum. -/
theorem addWrapsModuloTwo32 : Obligations.AddWrapsModuloTwo32 :=
  fun x s => exec_wrapped_forms (· + ·) (exec_addi x s) (exec_add x s)

/-- Settles O38: both forms wrap the difference. -/
theorem subWrapsModuloTwo32 : Obligations.SubWrapsModuloTwo32 :=
  fun x s => exec_wrapped_forms (· - ·) (exec_subi x s) (exec_sub x s)

/-- Settles O39: both forms wrap the product. -/
theorem mulWrapsModuloTwo32 : Obligations.MulWrapsModuloTwo32 :=
  fun x s => exec_wrapped_forms (· * ·) (exec_muli x s) (exec_mul x s)

/-! ### Truncating division of integers (R112) -/

theorem sign_tdiv_natCast {a : Int} (h : a.tdiv n ≠ 0) : (a.tdiv n).sign = a.sign := by
  have hn : 0 < n := Nat.pos_of_ne_zero fun e => h (by simp [e])
  have hs := Int.sign_tdiv a n
  split at hs
  · exact absurd (Int.sign_eq_zero_iff_zero.mp hs) h
  · rw [hs, Int.sign_eq_one_of_pos (Int.natCast_pos.mpr hn), mul_one]

theorem sign_tmod_natCast {a : Int} (h : a.tmod n ≠ 0) : (a.tmod n).sign = a.sign := by
  rw [Int.sign_tmod, if_neg fun hd => h (Int.tmod_eq_zero_of_dvd hd)]

/-- An integer of a word's sign and of no greater magnitude is the value of a word: wrapping
does not change it. Only `2 ^ 31` has the magnitude of a word without being one, and its sign is
not that of `-2 ^ 31`. -/
theorem wrap32_toInt_of_natAbs_le {a : Word} {q : Int} (hmag : q.natAbs ≤ a.toInt.natAbs)
    (hsign : q ≠ 0 → q.sign = a.toInt.sign) : (wrap32 q).toInt = q := by
  have hlo := a.le_toInt
  have hhi := a.toInt_lt
  have hpos : 0 < q → 0 < a.toInt := fun hq =>
    Int.sign_eq_one_iff_pos.mp ((hsign hq.ne').symm.trans (Int.sign_eq_one_of_pos hq))
  exact BitVec.toInt_ofInt_eq_self (by decide) (by omega) (by omega)

/-! ### DIV (R107, R108) -/

theorem aluDiv_toInt (hv : signed v = n) : (aluDiv acc v).toInt = acc.toInt.tdiv n := by
  rw [aluDiv, hv, signed]
  exact wrap32_toInt_of_natAbs_le
    ((Int.natAbs_tdiv acc.toInt n).trans_le (Nat.div_le_self ..)) sign_tdiv_natCast

/-- Division by a value that is not zero: the quotient's magnitude is the floor of the
magnitudes' quotient, and its sign that of ACC. -/
theorem exec_divide_of_ne_zero (he : exec i s = .next (s.divide v)) (hv : signed v = n)
    (hn : n ≠ 0) :
    ∃ r : Word, r.toInt.natAbs = s.acc.toInt.natAbs / n ∧
      (r.toInt ≠ 0 → r.toInt.sign = s.acc.toInt.sign) ∧ exec i s = .next (s.finish r) := by
  have hq := aluDiv_toInt (acc := s.acc) hv
  refine ⟨aluDiv s.acc v, hq ▸ Int.natAbs_tdiv .., hq ▸ sign_tdiv_natCast, ?_⟩
  rw [he, State.divide, if_neg ((eq_zero_iff_of_signed hv).not.mpr hn)]

theorem exec_divide_of_zero (he : exec i s = .next (s.divide v)) (hv : signed v = n)
    (hn : n = 0) : exec i s = .next (s.raise .divZero s.ip) := by
  rw [he, State.divide, if_pos ((eq_zero_iff_of_signed hv).mpr hn)]

/-- Settles O40: both forms divide by their operand's value, and the bound check of DIV comes
before the zero test. -/
theorem divTruncatesOrFaults : Obligations.DivTruncatesOrFaults := by
  intro x s
  have himm := exec_divi x s
  have hind := exec_of_withIndirect_of_lt (exec_div x s)
  exact ⟨fun hx => exec_divide_of_ne_zero himm (signed_zext32 x) (BitVec.toNat_ne.mp hx),
    fun hx => exec_divide_of_zero himm (signed_zext32 x) (congrArg BitVec.toNat hx),
    fun hb => exec_divide_of_ne_zero (hind hb) (signed_low16_read s x),
    fun hb => exec_divide_of_zero (hind hb) (signed_low16_read s x),
    exec_of_withIndirect_of_ge (exec_div x s)⟩

/-! ### MOD (R109, R110) -/

theorem aluMod_of_zero (hv : signed v = n) (hn : n = 0) : aluMod acc v = 0 :=
  if_pos ((eq_zero_iff_of_signed hv).mpr hn)

theorem aluMod_toInt (hv : signed v = n) (hn : n ≠ 0) :
    (aluMod acc v).toInt = acc.toInt.tmod n := by
  rw [aluMod, if_neg ((eq_zero_iff_of_signed hv).not.mpr hn), hv, signed]
  exact wrap32_toInt_of_natAbs_le
    ((Int.natAbs_tmod acc.toInt n).trans_le (Nat.mod_le ..)) sign_tmod_natCast

/-- The remainder is what the quotient leaves, smaller than the divisor and of ACC's sign. -/
theorem aluMod_remainder (hv : signed v = n) (hn : n ≠ 0) :
    (aluMod acc v).toInt = acc.toInt - n * acc.toInt.tdiv n ∧
      (aluMod acc v).toInt.natAbs < n ∧
      ((aluMod acc v).toInt ≠ 0 → (aluMod acc v).toInt.sign = acc.toInt.sign) := by
  rw [aluMod_toInt hv hn]
  exact ⟨Int.tmod_def .., (Int.natAbs_tmod acc.toInt n).trans_lt (Nat.mod_lt _ (by omega)),
    sign_tmod_natCast⟩

/-- Settles O41: both forms write `aluMod`, the truncated remainder, or 0 for a zero divisor. -/
theorem modPairsWithTruncation : Obligations.ModPairsWithTruncation := by
  intro x s
  have himm := signed_zext32 x
  have hind := signed_low16_read s x
  exact ⟨⟨_, fun hx => aluMod_remainder himm (BitVec.toNat_ne.mp hx),
      fun hx => aluMod_of_zero himm (congrArg BitVec.toNat hx), exec_modi x s⟩,
    fun hb => ⟨_, aluMod_remainder hind, aluMod_of_zero hind,
      exec_of_withIndirect_of_lt (exec_mod x s) hb⟩,
    exec_of_withIndirect_of_ge (exec_mod x s)⟩

end Sys2Proof.Machine


/-! PROOFS. What CMP and CMPI do to the flags (43_compare.md rules R120 to R123), and that every
step keeps the machine's invariant (10_state.md rules R11 to R15). -/

namespace Sys2Proof.Machine

variable {i : Instr} {s t : State} {x : Half} {v : Word} {n : Nat}

/-! ### The flags of a comparison (R122, R123) -/

theorem exec_cmp (x : Half) (s : State) :
    exec (.cmp x) s =
      .next (s.withIndirect x fun v => (s.setFlags (compareFlags s.acc v)).advance) :=
  rfl

theorem exec_cmpi (x : Half) (s : State) :
    exec (.cmpi x) s = .next (s.setFlags (compareFlags s.acc (zext32 x))).advance :=
  rfl

/-- The flags are those of the difference that SUB would write to ACC (R103, R122). -/
theorem compareFlags_eq_aluSub (acc v : Word) :
    compareFlags acc v =
      (decide (aluSub acc v = 0), decide (2 ^ 31 ≤ (aluSub acc v).toNat)) :=
  congrArg (Prod.mk _) (BitVec.msb_eq_decide _)

theorem aluSub_toNat (acc : Word) (hv : signed v = n) :
    ((aluSub acc v).toNat : Int) = (acc.toInt - n) % 2 ^ 32 := by
  rw [aluSub, wrap32_toNat, hv, signed]

/-- A zero difference has a clear sign bit, so one of three pairs comes out (R123). -/
theorem compareFlags_cases (acc v : Word) :
    compareFlags acc v = (false, false) ∨ compareFlags acc v = (true, false) ∨
      compareFlags acc v = (false, true) := by
  rw [compareFlags_eq_aluSub]
  by_cases hz : aluSub acc v = 0
  · simp [hz]
  · by_cases hn : 2 ^ 31 ≤ (aluSub acc v).toNat
    · exact .inr (.inr (by simp only [hz, hn, decide_true, decide_false]))
    · exact .inl (by simp only [hz, hn, decide_false])

/-- A comparison with a value whose number is `n`: the difference, and the next state. -/
theorem exec_compare_of_signed
    (he : exec i s = .next (s.setFlags (compareFlags s.acc v)).advance) (hv : signed v = n) :
    ∃ d : Word, (d.toNat : Int) = (s.acc.toInt - n) % 2 ^ 32 ∧
      exec i s = .next
        { s with zf := decide (d = 0), nf := decide (2 ^ 31 ≤ d.toNat), ip := s.ip + 1 } :=
  ⟨aluSub s.acc v, aluSub_toNat s.acc hv, by rw [he, compareFlags_eq_aluSub]; rfl⟩

/-- Settles O44: both forms set the flags from the wrapped difference with their operand's
value, and CMP checks its address first. -/
theorem compareSetsFlagsFromDifference : Obligations.CompareSetsFlagsFromDifference :=
  fun x s => ⟨exec_compare_of_signed (exec_cmpi x s) (signed_zext32 x),
    fun hx => exec_compare_of_signed (exec_of_withIndirect_of_lt (exec_cmp x s) hx)
      (signed_low16_read s x),
    exec_of_withIndirect_of_ge (exec_cmp x s)⟩

/-- A comparison that does not fault leaves the flags of some difference. -/
theorem exists_compareFlags_of_exec
    (h : exec (.cmpi x) s = .next t ∨ (exec (.cmp x) s = .next t ∧ x.toNat < s.cfg.memLen)) :
    ∃ v, t = (s.setFlags (compareFlags s.acc v)).advance := by
  rcases h with h | ⟨h, hx⟩
  · exact ⟨_, Host.Outcome.next.inj (h.symm.trans (exec_cmpi x s))⟩
  · exact ⟨_, Host.Outcome.next.inj
      (h.symm.trans (exec_of_withIndirect_of_lt (exec_cmp x s) hx))⟩

/-- Settles O46: the flags are those of some difference (`compareFlags_cases`). -/
theorem comparisonFlagsExclusive : Obligations.ComparisonFlagsExclusive := by
  intro x s t h
  obtain ⟨v, rfl⟩ := exists_compareFlags_of_exec h
  simpa [Prod.ext_iff] using compareFlags_cases s.acc v

/-! ### The flags after a step -/

/-- A comparison writes both flags, and every other instruction, and every fault, neither (R15). -/
theorem Effect.flags_cases (he : Effect i s t) :
    (i.mnemonic.writesFlags = true ∧ ∃ v, (t.zf, t.nf) = compareFlags s.acc v) ∨
    (t.zf = s.zf ∧ t.nf = s.nf) := by
  cases he with
  | compare _ _ v hm => exact .inl ⟨hm, v, rfl⟩
  | halt | acc | store | taken | untaken | got | hold | out => exact .inr ⟨rfl, rfl⟩
  | addrOob | targetOob | divZero | exhausted => exact .inr ⟨rfl, rfl⟩

/-- A step writes the flags only by performing a comparison (R15). -/
theorem step_flags_cases (h : step s = .next t) :
    (∃ i, s.Performs i ∧ i.mnemonic.writesFlags = true ∧
      ∃ v, (t.zf, t.nf) = compareFlags s.acc v) ∨
    (t.zf = s.zf ∧ t.nf = s.nf) := by
  rcases step_cases h with ⟨_, rfl, _⟩ | ⟨_, _, rfl, _⟩ | ⟨_, _, _, rfl, _⟩ | ⟨_, rfl, _⟩ |
    ⟨i, hp, he, _⟩
  · exact .inr ⟨rfl, rfl⟩
  · exact .inr ⟨rfl, rfl⟩
  · exact .inr ⟨rfl, rfl⟩
  · exact .inr ⟨rfl, rfl⟩
  · exact he.flags_cases.imp_left fun hc => ⟨i, hp, hc⟩

theorem step_flagsExclusive (h : step s = .next t) (hs : ¬ (s.zf = true ∧ s.nf = true)) :
    ¬ (t.zf = true ∧ t.nf = true) := by
  rcases step_flags_cases h with ⟨_, _, _, v, hv⟩ | ⟨hz, hn⟩
  · rintro ⟨hz, hn⟩
    rw [hz, hn] at hv
    simpa [← hv] using compareFlags_cases s.acc v
  · rwa [hz, hn]

/-! ### The bound of the pc (R13) -/

theorem toNat_add_one_le (a : Word) : (a + 1).toNat ≤ a.toNat + 1 :=
  (BitVec.toNat_add a 1).trans_le (Nat.mod_le ..)

/-- From an address that exists, the pc stays, advances by one, or goes to a target that exists
(R74, R130). -/
theorem Effect.ip_le (he : Effect i s t) (hip : s.ip.toNat < s.cfg.memLen) :
    t.ip.toNat ≤ s.cfg.memLen := by
  cases he with
  | halt | hold | addrOob | targetOob | divZero | exhausted => exact hip.le
  | acc | store | compare | untaken | got | out => exact (toNat_add_one_le _).trans hip
  | taken _ _ x _ hx => exact (zext32_toNat x).trans_le hx.le

/-- Only an instruction moves the pc, and only one fetched from an address that exists (R71). -/
theorem step_ip_le (h : step s = .next t) (hs : s.ip.toNat ≤ s.cfg.memLen) :
    t.ip.toNat ≤ s.cfg.memLen := by
  rcases step_cases h with ⟨_, rfl, _⟩ | ⟨_, _, rfl, _⟩ | ⟨_, _, _, rfl, _⟩ | ⟨_, rfl, _⟩ |
    ⟨_, ⟨_, hip, _⟩, he, _⟩
  · exact hs
  · exact hs
  · exact hs
  · exact hs
  · exact he.ip_le hip

/-! ### The machine's invariant -/

/-- The one write of a step, STORE's, keeps the list canonical and within range (R11, R31). -/
theorem step_mem_wf_below (h : step s = .next t) (hwf : s.mem.wf)
    (hbelow : s.mem.below s.cfg.memLen) : t.mem.wf ∧ t.mem.below s.cfg.memLen := by
  rcases step_mem_cases h with ⟨x, _, hx, hmem⟩ | hmem
  · rw [hmem]
    exact ⟨Memory.write_wf hwf, Memory.write_below hbelow hx⟩
  · rw [hmem]
    exact ⟨hwf, hbelow⟩

/-- Settles O25, field by field: the configuration, the memory, the pc and the flags. -/
theorem stepKeepsMachineInv : Obligations.StepKeepsMachineInv := by
  intro s t ⟨hlegal, hwf, hbelow, hip, hflags⟩ h
  have hcfg := step_cfg_eq h
  have ⟨hwf', hbelow'⟩ := step_mem_wf_below h hwf hbelow
  exact {
    cfgLegal := hcfg ▸ hlegal
    memCanonical := hwf'
    memExists := hcfg ▸ hbelow'
    ipBound := hcfg ▸ step_ip_le h hip
    flagsExclusive := step_flagsExclusive h hflags }

end Sys2Proof.Machine

/-! PROOFS. The seven jumps: where they go, when they are taken and where they trap (44_jumps.md
rules R130 to R138). -/

namespace Sys2Proof.Machine

variable {i : Instr} {s : State} {x : Half} {p : Prop} [Decidable p]

/-! ### JMPI, the jump always taken (R130, R132) -/

theorem exec_jmpi (x : Half) (s : State) : exec (.jmpi x) s = .next (s.jump x) :=
  rfl

theorem jump_of_lt (hx : x.toNat < s.cfg.memLen) : s.jump x = s.redirect x :=
  if_pos hx

theorem jump_of_ge (hx : s.cfg.memLen ≤ x.toNat) : s.jump x = s.raise .targetOob (zext32 x) :=
  if_neg (Nat.not_lt.mpr hx)

/-- Settles O47: in range the jump is the redirect and the refresh, else TARGET_OOB is raised. -/
theorem jmpiRedirectsAndRefreshes : Obligations.JmpiRedirectsAndRefreshes :=
  fun x s => ⟨fun hx => (exec_jmpi x s).trans (congrArg Host.Outcome.next (jump_of_lt hx)),
    fun hx => (exec_jmpi x s).trans (congrArg Host.Outcome.next (jump_of_ge hx))⟩

/-! ### The conditional jumps as JMPI or the increment (R131, R133 to R138) -/

/-- A conditional jump whose condition `c` says `p` is JMPI when `p` holds, and else it only
advances the pc. -/
theorem exec_eq_ite_jmpi {c : Bool} (he : exec i s = .next (s.jumpIf c x))
    (hc : c = true ↔ p) :
    exec i s = if p then exec (.jmpi x) s else .next s.advance := by
  by_cases hp : p
  · rw [if_pos hp, he, hc.mpr hp, exec_jmpi]
    rfl
  · rw [if_neg hp, he, Bool.eq_false_iff.mpr (mt hc.mp hp)]
    rfl

/-- Settles O48: each condition says of the flags what its rule says. -/
theorem conditionalJumpsFollowFlags : Obligations.ConditionalJumpsFollowFlags :=
  fun _ s => ⟨exec_eq_ite_jmpi rfl Iff.rfl,
    exec_eq_ite_jmpi rfl (by rw [State.isNotEqual, Bool.not_eq_true']),
    exec_eq_ite_jmpi rfl Iff.rfl,
    exec_eq_ite_jmpi rfl (by rw [State.isLessOrEqual, Bool.or_eq_true]),
    exec_eq_ite_jmpi rfl (by simp [State.isGreater]),
    exec_eq_ite_jmpi rfl (by rw [State.isGreaterOrEqual, Bool.not_eq_true'])⟩

/-! ### All seven by their target -/

theorem exec_eq_elim_of_ite (he : exec i s = if p then exec (.jmpi x) s else .next s.advance)
    (ht : i.takenTarget s.zf s.nf = if p then some x else none) :
    exec i s = (i.takenTarget s.zf s.nf).elim (.next s.advance) fun y => exec (.jmpi y) s := by
  rw [he, ht]
  split <;> rfl

/-- A jump is JMPI to the target it takes, and without one only the increment (R130, R131). -/
theorem exec_eq_elim_takenTarget (s : State) (hm : i.mnemonic.mode = .immediateTarget) :
    exec i s = (i.takenTarget s.zf s.nf).elim (.next s.advance) fun y => exec (.jmpi y) s := by
  obtain ⟨hjei, hjnei, hjli, hjlei, hjgi, hjgei⟩ := conditionalJumpsFollowFlags i.operand s
  cases i with
  | jmpi x => rfl
  | jei x => exact exec_eq_elim_of_ite hjei rfl
  | jnei x => exact exec_eq_elim_of_ite hjnei rfl
  | jli x => exact exec_eq_elim_of_ite hjli rfl
  | jlei x => exact exec_eq_elim_of_ite hjlei rfl
  | jgi x => exact exec_eq_elim_of_ite hjgi rfl
  | jgei x => exact exec_eq_elim_of_ite hjgei rfl
  | _ => cases hm

/-- Settles O49: the target taken, if any, decides, and JMPI says what a taken one does. -/
theorem conditionalJumpsComplete : Obligations.ConditionalJumpsComplete := by
  intro i s hm
  rw [exec_eq_elim_takenTarget s hm]
  refine ⟨fun h => ?_, fun x h hx => ?_, fun x h hx => ?_⟩
  · rw [h]
    rfl
  · rw [h]
    exact (jmpiRedirectsAndRefreshes x s).1 hx
  · rw [h]
    exact (jmpiRedirectsAndRefreshes x s).2 hx

end Sys2Proof.Machine

/-! PROOFS. What OUT does (45_io.md rule R151). -/

namespace Sys2Proof.Machine

theorem exec_out (s : State) : exec .out s = .next (s.emit s.outCode).advance :=
  rfl

theorem outCode_toNat (s : State) : s.outCode.toNat = s.acc.toNat % 256 :=
  BitVec.extractLsb'_toNat 0 8 s.acc

/-- Settles O52: the code is `State.outCode`, and OUT emits it and advances. -/
theorem outEmitsLowByte : Obligations.OutEmitsLowByte :=
  fun s => ⟨s.outCode, outCode_toNat s, exec_out s⟩

end Sys2Proof.Machine

/-! PROOFS. What the host and the streams can do between two steps, and what they see of one
(50_interfaces.md rules R161 to R168). -/

namespace Sys2Proof.Machine

variable {i : Instr} {s t : State} {a : Nat} {w : Word} {input : List Word} {ended : Bool}

/-! ### The output of a step (R164) -/

/-- `State.outCode` is ACC narrowed to 8 bits (R151). -/
theorem outCode_eq_setWidth (s : State) : s.outCode = s.acc.setWidth 8 :=
  (BitVec.setWidth_eq_extractLsb' (by decide)).symm

/-- The front of a step that performs `i` goes on to `i`, on the latched state (R72, R73). -/
theorem beginStep_of_performs (hp : s.Performs i) :
    beginStep s = .run i (s.latch s.fetchWord) := by
  obtain ⟨hen, hip, hd, hn⟩ := hp
  change decode s.cfg.opcodes s.fetchWord = .ok i at hd
  have hh : s.holds i = false := by simpa [State.holds] using hn
  simp [beginStep, hen, hip, hd, hh]

/-- `Performs` is what the front of a step goes on to perform. -/
theorem performs_beginStep_iff : (beginStep s).performs = some i ↔ s.Performs i := by
  refine ⟨fun h => ?_, fun hp => by rw [beginStep_of_performs hp]; rfl⟩
  rcases beginStep_cases s with ⟨_, e⟩ | ⟨_, _, e⟩ | ⟨_, _, _, e⟩ | ⟨_, _, _, _, e⟩ |
    ⟨j, hen, hip, hd, hh, e⟩ <;> rw [e] at h <;> cases h
  exact ⟨hen, hip, hd, by simpa [State.holds] using hh⟩

theorem outData_of_performs (hp : s.Performs .out) : s.outData = some s.outCode :=
  if_pos (performs_beginStep_iff.mpr hp)

theorem outData_of_not_performs (hn : ¬ s.Performs .out) : s.outData = none :=
  if_neg (mt performs_beginStep_iff.mp hn)

theorem step_of_performs_out (hp : s.Performs .out) :
    step s = .next ((s.latch s.fetchWord).emit s.outCode).advance :=
  step_of_performs hp

/-- Of all instructions OUT alone emits (R153, R164). -/
theorem Effect.output_eq (he : Effect i s t) (hi : i ≠ .out) : t.output = s.output := by
  cases he with
  | out => exact absurd rfl hi
  | halt | acc | store | compare | taken | untaken | got | hold => rfl
  | addrOob | targetOob | divZero | exhausted => rfl

theorem step_output_eq (h : step s = .next t) (hn : ¬ s.Performs .out) :
    t.output = s.output := by
  rcases step_cases h with ⟨_, rfl, _⟩ | ⟨_, _, rfl, _⟩ | ⟨_, _, _, rfl, _⟩ | ⟨_, rfl, _⟩ |
    ⟨i, hp, he, _⟩
  · rfl
  · rfl
  · rfl
  · rfl
  · exact he.output_eq fun hi => hn (hi ▸ hp)

/-- Settles O23: a step that performs OUT is one emission, and any other emits nothing. -/
theorem outputGrowsByOutAlone : Obligations.OutputGrowsByOutAlone := by
  intro s t h
  rw [← outCode_eq_setWidth]
  refine ⟨fun hp => ⟨?_, outData_of_performs hp⟩,
    fun hn => ⟨step_output_eq h hn, outData_of_not_performs hn⟩⟩
  obtain rfl := Host.Outcome.next.inj ((step_of_performs_out hp).symm.trans h)
  rfl

/-! ### LoadWord (R162) -/

theorem loadWord_of_accepted (w : Word) (hrs : s.rs = .ready) (ha : a < s.cfg.memLen) :
    s.loadWord a w = s.writeCell a w :=
  if_pos ⟨hrs, ha⟩

theorem loadWord_of_refused (w : Word) (h : s.rs ≠ .ready ∨ s.cfg.memLen ≤ a) :
    s.loadWord a w = s :=
  if_neg fun ⟨hrs, ha⟩ => h.elim (absurd hrs) (Nat.not_le.mpr ha)

/-- Settles O57: an accepted LoadWord is one write to the cell, and a refused one is none. -/
theorem loadWordOnlyWhileReady : Obligations.LoadWordOnlyWhileReady :=
  fun _ _ w => ⟨fun hrs ha =>
      ⟨_, congrArg Host.Outcome.next (loadWord_of_accepted w hrs ha), wroteCell_of_mem_eq rfl, rfl⟩,
    fun h => congrArg Host.Outcome.next (loadWord_of_refused w h)⟩

/-! ### Snapshot (R168) -/

theorem length_snapshot_memory (s : State) : s.snapshot.memory.length = s.cfg.memLen := by
  simp [State.snapshot]

theorem getElem?_snapshot_memory (ha : a < s.cfg.memLen) :
    s.snapshot.memory[a]? = some (s.mem.read a) := by
  simp [State.snapshot, ha]

/-- Settles O60: the memory list is every cell in order, and each register is a field. -/
theorem snapshotShowsEveryCell : Obligations.SnapshotShowsEveryCell :=
  fun s => ⟨rfl, length_snapshot_memory s, fun _ => getElem?_snapshot_memory,
    rfl, rfl, rfl, rfl, rfl, rfl, rfl, rfl⟩

/-! ### The invariants under every move but a step (R161, R162, R167) -/

theorem resetCore_inv (hc : s.cfg.wf = true) : s.resetCore.Inv where
  cfgLegal := hc
  memCanonical := Memory.reset_wf s.cfg
  memExists := nofun
  ipBound := Nat.zero_le _
  flagsExclusive := nofun

theorem resetCore_faultRecord (s : State) : s.resetCore.FaultRecord :=
  ⟨rfl, rfl⟩

theorem resetCore_runRecord (s : State) : s.resetCore.RunRecord :=
  ⟨fun _ => ⟨rfl, rfl, rfl, rfl, rfl⟩, nofun⟩

/-- Writing a cell that exists keeps the machine's invariant (R11, R31). -/
theorem State.Inv.writeCell (hs : s.Inv) (w : Word) (ha : a < s.cfg.memLen) :
    (s.writeCell a w).Inv :=
  { hs with
    memCanonical := Memory.write_wf hs.memCanonical
    memExists := Memory.write_below hs.memExists ha }

theorem loadWord_inv (hs : s.Inv) (a : Nat) (w : Word) : (s.loadWord a w).Inv := by
  rcases loadWord_cases s a w with ⟨_, ha, e⟩ | e <;> rw [e]
  · exact hs.writeCell w ha
  · exact hs

/-- The record of a fault reads no cell. -/
theorem loadWord_faultRecord (hs : s.FaultRecord) (a : Nat) (w : Word) :
    (s.loadWord a w).FaultRecord := by
  rcases loadWord_cases s a w with ⟨_, _, e⟩ | e <;> rw [e] <;> exact hs

/-- LoadWord is refused at a HALTED core, so the HALT word stays in its cell (R162). -/
theorem loadWord_runRecord (hs : s.RunRecord) (a : Nat) (w : Word) :
    (s.loadWord a w).RunRecord := by
  rcases loadWord_cases s a w with ⟨hrs, _, e⟩ | e <;> rw [e]
  · exact ⟨hs.1, fun hh => absurd (hrs.symm.trans hh) nofun⟩
  · exact hs

/-- Of the streams the fault record says only that the input of an exhausted IN is over, so it
allows every change that keeps an input over at a FAULTED core (R188). -/
theorem State.FaultRecord.withStreams (hs : s.FaultRecord)
    (hover : s.rs = .faulted → s.input = [] → s.inputEnded = true → input = [] ∧ ended = true) :
    { s with input := input, inputEnded := ended }.FaultRecord := by
  by_cases hrs : s.rs = .faulted
  · cases hc : s.fcause with
    | none => simp [State.FaultRecord, hrs, hc] at hs
    | inputExhausted =>
      simp only [State.FaultRecord, hrs, hc, if_true] at hs ⊢
      obtain ⟨hinfo, hir, hin, hend⟩ := hs
      exact ⟨hinfo, hir, hover hrs hin hend⟩
    | _ => simpa only [State.FaultRecord, State.irMnemonic, hrs, hc, if_true] using hs
  · simpa only [State.FaultRecord, if_neg hrs] using hs

/-- The three invariants are kept by every change of the streams that keeps an input over at a
FAULTED core: the other two do not speak of the streams. -/
theorem invariants_withStreams (hinv : s.Inv) (hfault : s.FaultRecord) (hrun : s.RunRecord)
    (hover : s.rs = .faulted → s.input = [] → s.inputEnded = true → input = [] ∧ ended = true) :
    { s with input := input, inputEnded := ended }.Inv ∧
      { s with input := input, inputEnded := ended }.FaultRecord ∧
      { s with input := input, inputEnded := ended }.RunRecord :=
  ⟨{ hinv with }, hfault.withStreams hover, hrun⟩

/-- Settles O29, move by move: an input that is over stays over at a FAULTED core, as no value
arrives after the end and a fresh stream is given to a READY core only. -/
theorem hostMovesKeepInvariants : Obligations.HostMovesKeepInvariants := by
  intro mv s t hstep h hinv hfault hrun
  cases mv with
  | step => exact absurd rfl hstep
  | reset =>
    cases h
    exact ⟨resetCore_inv hinv.cfgLegal, resetCore_faultRecord s, resetCore_runRecord s⟩
  | loadWord a w =>
    cases h
    exact ⟨loadWord_inv hinv a w, loadWord_faultRecord hfault a w, loadWord_runRecord hrun a w⟩
  | snapshot => cases h; exact ⟨hinv, hfault, hrun⟩
  | supply x =>
    cases h
    unfold State.supply
    split
    · exact ⟨hinv, hfault, hrun⟩
    · next hopen => exact invariants_withStreams hinv hfault hrun fun _ _ he => absurd he hopen
  | endInput =>
    cases h
    exact invariants_withStreams hinv hfault hrun fun _ hin _ => ⟨hin, rfl⟩
  | attach input ended =>
    cases h
    unfold State.attach
    split
    · next hready =>
      exact invariants_withStreams hinv hfault hrun fun hrs => absurd (hready.symm.trans hrs) nofun
    · exact ⟨hinv, hfault, hrun⟩

end Sys2Proof.Machine

/-! PROOFS. Fault entry seen from a whole step (60_exceptions.md rules R184, R186). -/

namespace Sys2Proof.Machine

variable {i : Instr} {s t : State}

/-- An instruction that faults comes to fault entry on the state it began with, so none of its
own writes is left, and IP_OOB is the fetch's cause alone (R180, R186). -/
theorem Effect.eq_raise (he : Effect i s t) (hs : s.rs ≠ .faulted) (hf : t.rs = .faulted) :
    ∃ c n, t = s.raise c n ∧ c ≠ .ipOob := by
  cases he with
  | halt => cases hf
  | acc | store | compare | taken | untaken | got | hold | out => exact absurd hf hs
  | addrOob | targetOob | divZero | exhausted => exact ⟨_, _, rfl, nofun⟩

/-- A faulting step is fault entry: on the state itself when the fetch failed, and otherwise on
the latched state (R181, R186). -/
theorem step_eq_raise (hen : s.enabled = true) (h : step s = .next t) (hf : t.rs = .faulted) :
    t = s.raise .ipOob s.ip ∨
    ∃ c n, t = (s.latch s.fetchWord).raise c n ∧ c ≠ .ipOob := by
  rcases step_cases h with ⟨hoff, _⟩ | ⟨_, _, ht, _⟩ | ⟨_, _, _, ht, _⟩ | ⟨_, rfl, _⟩ |
    ⟨i, _, he, _⟩
  · simp [hen] at hoff
  · exact .inl ht
  · exact .inr ⟨_, _, ht, nofun⟩
  · exact absurd hf (rs_ne_faulted_of_enabled hen)
  · exact .inr (he.eq_raise nofun hf)

/-- Settles O17: fault entry writes RS, FCAUSE and FINFO, and the latch IR and RS. -/
theorem faultsArePrecise : Obligations.FaultsArePrecise := by
  intro s t hrs h hf
  rcases step_eq_raise ((enabled_iff s).mpr hrs) h hf with rfl | ⟨c, n, rfl, hc⟩
  · exact ⟨rfl, fun _ => rfl, fun hne => absurd rfl hne⟩
  · exact ⟨rfl, fun hip => absurd hip hc, fun _ => rfl⟩

theorem step_of_unknownOpcode (hen : s.enabled = true) (hip : s.ip.toNat < s.cfg.memLen)
    (hk : s.cfg.opcodes.mnemonicFor (opcodeOf s.fetchWord) = none) :
    step s = .next ((s.latch s.fetchWord).raise .unknownOpcode s.fetchWord) := by
  have hd := decode_eq_error.mpr ⟨hk, rfl⟩
  exact step_of_ended (by simp [beginStep, hen, hip, hd])

/-- Settles O11: the latch writes IR, and fault entry RS, FCAUSE and FINFO. -/
theorem unknownOpcodeFaults : Obligations.UnknownOpcodeFaults := by
  rintro s _ hrs hip rfl hk
  exact step_of_unknownOpcode ((enabled_iff s).mpr hrs) hip hk

end Sys2Proof.Machine

/-! PROOFS. The words the spec decodes (95_test_vectors.md Part 2), the default configuration
(R4, R55), and the writers of the flags (R15). -/

namespace Sys2Proof

/-- Settles O1: each word is looked up in the default map, which is concrete. -/
theorem specWordsDecode : Obligations.SpecWordsDecode :=
  ⟨rfl, rfl, rfl, rfl, rfl, rfl, rfl, rfl, rfl, rfl, rfl⟩

theorem Config.default_wf : Config.default.wf = true := by decide

theorem Instr.eq_compare_of_writesFlags {i : Instr}
    (h : i.mnemonic.writesFlags = true) :
    ∃ x, i = .cmp x ∨ i = .cmpi x := by
  cases i with
  | cmp x => exact ⟨x, .inl rfl⟩
  | cmpi x => exact ⟨x, .inr rfl⟩
  | _ => cases h

end Sys2Proof

/-! PROOFS. That a step always answers, when its fetch fails, and when an IN takes a value
(40_step_and_halt.md section 1, 45_io.md rules R150 to R152, R181). -/

namespace Sys2Proof.Machine

variable {i : Instr} {s t : State} {x : Word} {rest : List Word}

/-- Settles O8: the front of a step is a state, or goes on to an instruction, which answers
one. -/
theorem everyStepAnswersNext : Obligations.EveryStepAnswersNext := by
  intro s
  cases h : beginStep s with
  | ended t => exact ⟨t, step_of_ended h⟩
  | run i u =>
    obtain ⟨t, ht, -⟩ := exec_effect i u
    exact ⟨t, (step_of_run h).trans ht⟩

/-! ### A fetch out of range (R71, R181) -/

theorem step_of_fetch_out_of_range (hen : s.enabled = true) (hip : s.cfg.memLen ≤ s.ip.toNat) :
    step s = .next (s.raise .ipOob s.ip) :=
  step_of_ended (by simp [beginStep, hen, hip])

/-- Settles O10: fault entry writes RS, FCAUSE and FINFO. -/
theorem fetchOutOfRangeFaults : Obligations.FetchOutOfRangeFaults :=
  fun s hrs hip => step_of_fetch_out_of_range ((enabled_iff s).mpr hrs) hip

/-- An enabled step raises IP_OOB exactly when its fetch is out of range: past the fetch no
fault has this cause (R180, R181). -/
theorem step_raises_ipOob_iff (hen : s.enabled = true) (h : step s = .next t) :
    t.fcause = .ipOob ∧ t.rs = .faulted ↔ s.cfg.memLen ≤ s.ip.toNat := by
  rcases step_cases h with ⟨hoff, _⟩ | ⟨_, hip, rfl, _⟩ | ⟨_, hip, _, rfl, _⟩ | ⟨_, rfl, hheld, _⟩ |
    ⟨i, ⟨_, hip, _⟩, he, _⟩
  · simp [hen] at hoff
  · exact iff_of_true ⟨rfl, rfl⟩ hip
  · exact iff_of_false nofun (Nat.not_le.mpr hip)
  · exact iff_of_false (fun hf => rs_ne_faulted_of_enabled hen hf.2)
      (Nat.not_le.mpr (held_iff.mp hheld).2.1)
  · refine iff_of_false (fun ⟨hc, hf⟩ => ?_) (Nat.not_le.mpr hip)
    obtain ⟨c, n, rfl, hne⟩ := he.eq_raise nofun hf
    exact hne hc

/-- Settles O18: the invariant bounds the pc by MEM_LEN, so out of range it is MEM_LEN. -/
theorem fetchOverrunOnlyPastTheLastCell : Obligations.FetchOverrunOnlyPastTheLastCell := by
  intro s t hinv hrs h
  rw [step_raises_ipOob_iff ((enabled_iff s).mpr hrs) h]
  exact ⟨hinv.ipBound.antisymm, Eq.ge⟩

/-! ### IN by the environment's answer (R150, R152) -/

theorem answer_of_input_cons (h : s.input = x :: rest) : s.answer = .got x := by
  simp [State.answer, h]

theorem exec_inp_of_got (h : s.answer = .got x) :
    exec .inp s = .next (s.takeInput.setAcc x).advance := by
  simp [exec, execIn, h]

theorem exec_inp_of_exhausted (h : s.answer = .exhausted) :
    exec .inp s = .next (s.raise .inputExhausted s.ip) := by
  simp [exec, execIn, h]

theorem exec_inp_of_notReady (h : s.answer = .notReady) : exec .inp s = .next s := by
  simp [exec, execIn, h]

/-- A `Step` at an IN without an answer changes nothing: it is a hold when the core is enabled,
and is ignored by a stopped core (R75, R80, R150). -/
theorem step_of_inp_notReady (ha : s.answer = .notReady) (hip : s.ip.toNat < s.cfg.memLen)
    (hd : decode s.cfg.opcodes s.fetchWord = .ok .inp) : step s = .next s := by
  cases hen : s.enabled with
  | true => exact step_of_held (held_iff.mpr ⟨hen, hip, hd, ha⟩)
  | false => exact step_of_ended (by simp [beginStep, hen])

/-- Settles O51, answer by answer. -/
theorem inTakesOneValueOrFaults : Obligations.InTakesOneValueOrFaults :=
  fun _ => ⟨fun _ => exec_inp_of_got, exec_inp_of_exhausted, exec_inp_of_notReady,
    step_of_inp_notReady⟩

end Sys2Proof.Machine

/-! PROOFS. What each instruction, each step and each move leaves unchanged of the registers, the
streams and memory (10_state.md rules R11, R12, R15, R20, R152). -/

namespace Sys2Proof.Machine

variable {i : Instr} {s t : State} {mv : Move}

/-! ### What an instruction leaves unchanged -/

/-- ACC is written by the instructions R12 lists, and no fault writes it. -/
theorem Effect.acc_cases (he : Effect i s t) :
    i.mnemonic.writesAcc = true ∨ t.acc = s.acc := by
  cases he with
  | acc _ _ _ hm => exact .inl hm
  | got => exact .inl rfl
  | halt | store | compare | taken | untaken | hold | out => exact .inr rfl
  | addrOob | targetOob | divZero | exhausted => exact .inr rfl

/-- Of all instructions IN alone consumes input (R152). -/
theorem Effect.input_eq (he : Effect i s t) (hi : i ≠ .inp) : t.input = s.input := by
  cases he with
  | got | hold | exhausted => exact absurd rfl hi
  | halt | acc | store | compare | taken | untaken | out => rfl
  | addrOob | targetOob | divZero => rfl

theorem Effect.inputEnded_eq (he : Effect i s t) : t.inputEnded = s.inputEnded := by
  cases he <;> rfl

/-- FCAUSE and FINFO are written by faults alone (R17, R186). -/
theorem Effect.fault_eq_of_not_faulted (he : Effect i s t) (hf : t.rs ≠ .faulted) :
    t.fcause = s.fcause ∧ t.finfo = s.finfo := by
  cases he with
  | addrOob | targetOob | divZero | exhausted => exact absurd rfl hf
  | halt | acc | store | compare | taken | untaken | got | hold | out => exact ⟨rfl, rfl⟩

/-- Settles O53: memory is as before but for the one write of STORE (`Effect.mem_cases`). -/
theorem everyOtherCellIsKept : Obligations.EveryOtherCellIsKept := by
  intro i s t h
  rcases (effect_of_exec h).mem_cases with ⟨x, rfl, _, hmem⟩ | hmem
  · refine ⟨fun hi => absurd rfl hi, fun _ a ha => ?_⟩
    rw [hmem]
    exact Memory.read_write_of_ne _ _ _ _ ha
  · have hsame := sameMemory_of_mem_eq hmem
    exact ⟨fun _ => hsame, fun _ a _ => hsame a⟩

/-- Settles O54, register by register of the access matrix. -/
theorem registersKeptByOthers : Obligations.RegistersKeptByOthers := by
  intro i s t hrs h hf
  have he := effect_of_exec h
  obtain ⟨hcause, hinfo⟩ := he.fault_eq_of_not_faulted hf
  refine ⟨fun hm => ?_, fun hm => ?_, fun ht => ?_, fun hi => ?_, hcause, hinfo,
    he.inputEnded_eq, he.input_eq, he.output_eq, he.cfg_eq⟩
  · exact he.acc_cases.resolve_left (by simp [hm])
  · exact he.flags_cases.resolve_left (by simp [hm])
  · rcases he.ir_cases with ⟨x, hx, _⟩ | ⟨hir, _⟩
    · simp [ht] at hx
    · exact hir
  · rcases he.rs_cases with ⟨hhalt, _⟩ | ⟨_, hrun | hfault⟩
    · exact absurd hhalt hi
    · exact hrun.trans hrs
    · exact absurd hfault hf

/-! ### What a step leaves unchanged -/

/-- A step performs an instruction on the latched state, or it performs none and writes at most
IR, RS and the fault record (R70 to R73, R186). -/
theorem step_frame_cases (h : step s = .next t) :
    (∃ i, s.Performs i ∧ Effect i (s.latch s.fetchWord) t) ∨
    ((∀ i, ¬ s.Performs i) ∧
      t = { s with ir := t.ir, rs := t.rs, fcause := t.fcause, finfo := t.finfo }) := by
  rcases step_cases h with ⟨_, rfl, _, hn⟩ | ⟨_, _, rfl, _, hn⟩ | ⟨_, _, _, rfl, _, hn⟩ |
    ⟨_, rfl, _, hn⟩ | ⟨i, hp, he, _⟩
  · exact .inr ⟨hn, rfl⟩
  · exact .inr ⟨hn, rfl⟩
  · exact .inr ⟨hn, rfl⟩
  · exact .inr ⟨hn, rfl⟩
  · exact .inl ⟨i, hp, he⟩

/-- A step writes ACC only by performing an instruction R12 lists. -/
theorem step_acc_cases (h : step s = .next t) :
    (∃ i, s.Performs i ∧ i.mnemonic.writesAcc = true) ∨ t.acc = s.acc := by
  rcases step_frame_cases h with ⟨i, hp, he⟩ | ⟨_, ht⟩
  · exact he.acc_cases.imp_left fun hm => ⟨i, hp, hm⟩
  · exact .inr (congrArg State.acc ht :)

theorem step_inputEnded_eq (h : step s = .next t) : t.inputEnded = s.inputEnded := by
  rcases step_frame_cases h with ⟨_, _, he⟩ | ⟨_, ht⟩
  · exact he.inputEnded_eq
  · exact (congrArg State.inputEnded ht :)

theorem step_input_eq (h : step s = .next t) (hn : ¬ s.Performs .inp) : t.input = s.input := by
  rcases step_frame_cases h with ⟨i, hp, he⟩ | ⟨_, ht⟩
  · exact he.input_eq fun hi => hn (hi ▸ hp)
  · exact (congrArg State.input ht :)

/-- Settles O24: an IN performed takes the head of the input, which the latch does not touch,
and no other step touches the input. -/
theorem inputConsumedByInAlone : Obligations.InputConsumedByInAlone := by
  intro s t h
  refine ⟨step_inputEnded_eq h, step_input_eq h, fun hp x rest hin => ?_⟩
  have hans : (s.latch s.fetchWord).answer = .got x := answer_of_input_cons hin
  rw [step_of_performs hp, exec_inp_of_got hans] at h
  cases h
  simp [hin]

/-! ### What a move leaves unchanged -/

/-- Between two steps the host and the environment write memory and the input alone, unless they
reset the core (R161 to R168). -/
theorem transact_frame (hreset : mv ≠ .reset) (hstep : mv ≠ .step)
    (h : transact mv s = .next t) :
    t = { s with mem := t.mem, input := t.input, inputEnded := t.inputEnded } := by
  cases mv with
  | reset => exact absurd rfl hreset
  | step => exact absurd rfl hstep
  | snapshot | endInput => cases h; rfl
  | loadWord a w =>
    cases h
    unfold State.loadWord
    split <;> rfl
  | supply x =>
    cases h
    unfold State.supply
    split <;> rfl
  | attach input ended =>
    cases h
    unfold State.attach
    split <;> rfl

/-- Settles O20: no host move but reset writes the flags, and of the steps only a comparison
performed (`step_flags_cases`). -/
theorem onlyComparisonsWriteFlags : Obligations.OnlyComparisonsWriteFlags := by
  intro mv s t h hreset hchange
  by_cases hstep : mv = .step
  · subst hstep
    rcases step_flags_cases h with ⟨i, hp, hm, _⟩ | ⟨hz, hn⟩
    · obtain ⟨x, rfl | rfl⟩ := Instr.eq_compare_of_writesFlags hm
      · exact ⟨rfl, x, .inl hp⟩
      · exact ⟨rfl, x, .inr hp⟩
    · simp [hz, hn] at hchange
  · have ht := transact_frame hreset hstep h
    have hz : t.zf = s.zf := (congrArg State.zf ht :)
    have hn : t.nf = s.nf := (congrArg State.nf ht :)
    simp [hz, hn] at hchange

/-- Settles O21: no host move but reset writes ACC, and of the steps only those of
`step_acc_cases`. -/
theorem onlyListedInstructionsWriteAcc : Obligations.OnlyListedInstructionsWriteAcc := by
  intro mv s t h hreset hchange
  by_cases hstep : mv = .step
  · subst hstep
    exact ⟨rfl, (step_acc_cases h).resolve_right hchange⟩
  · exact absurd (congrArg State.acc (transact_frame hreset hstep h)) hchange

end Sys2Proof.Machine

/-! PROOFS. The three invariants of every reachable state, and reset, from which it is reached
(10_state.md sections 2 and 3, R161, R210). -/

namespace Sys2Proof.Machine

variable {s t : State} {mv : Move} {ms : List Move}

/-- Settles O56: each field is as `State.resetCore` writes it. -/
theorem hostResetFromAnyState : Obligations.HostResetFromAnyState :=
  fun s => ⟨s.resetCore, rfl, fun _ => rfl, rfl, rfl, rfl, rfl, rfl, rfl, rfl, rfl, rfl, rfl, rfl,
    rfl⟩

/-- The machine's invariant, the fault record and the run record together. -/
def State.Invariants (s : State) : Prop := s.Inv ∧ s.FaultRecord ∧ s.RunRecord

/-- The reset state is what resetting it gives, so it meets what every reset core meets. -/
theorem resetWith_invariants {c : Config} (hc : c.wf = true) : (State.resetWith c).Invariants :=
  ⟨resetCore_inv (s := State.resetWith c) hc, resetCore_faultRecord (State.resetWith c),
    resetCore_runRecord (State.resetWith c)⟩

/-- Settles O28: the default configuration is a legal one. -/
theorem invariantsHoldAtReset : Obligations.InvariantsHoldAtReset :=
  ⟨fun _ => resetWith_invariants, resetWith_invariants Config.default_wf⟩

/-- Every move, a step among them, keeps the three invariants. -/
theorem State.Invariants.transact (hs : s.Invariants) (h : transact mv s = .next t) :
    t.Invariants := by
  obtain ⟨hinv, hfault, hrun⟩ := hs
  by_cases hstep : mv = .step
  · subst hstep
    exact ⟨stepKeepsMachineInv s t hinv h, stepKeepsFaultRecord s t hfault h,
      stepKeepsRunRecord s t hrun h⟩
  · exact hostMovesKeepInvariants mv s t hstep h hinv hfault hrun

/-- Moves that answer a state are a first move and the rest from where it leads. -/
theorem exists_of_runMoves_cons (h : runMoves (mv :: ms) s = .next t) :
    ∃ u, transact mv s = .next u ∧ runMoves ms u = .next t := by
  unfold runMoves at h
  split at h
  · next u hu => exact ⟨u, hu, h⟩
  · cases h
  · cases h

theorem State.Invariants.runMoves (hs : s.Invariants) (h : runMoves ms s = .next t) :
    t.Invariants := by
  induction ms generalizing s with
  | nil => cases h; exact hs
  | cons mv ms ih =>
    obtain ⟨u, hu, hrest⟩ := exists_of_runMoves_cons h
    exact ih (hs.transact hu) hrest

/-- Settles O30, by induction on the moves. -/
theorem reachableStatesKeepInvariants : Obligations.ReachableStatesKeepInvariants :=
  fun _ _ _ hc h => (resetWith_invariants hc).runMoves h

end Sys2Proof.Machine

/-! PROOFS. A STORE as the next fetch sees it, the order a comparison reads as, a jump to itself,
and the layout of a program image (20_memory.md rule R40, 43_compare.md rule R122, 44_jumps.md
rule R132, 50_interfaces.md rule R162). -/

namespace Sys2Proof.Machine

variable {s t : State} {x : Half}

/-! ### STORE and the next fetch (R40) -/

theorem step_of_performs_store (hp : s.Performs (.store x)) (hx : x.toNat < s.cfg.memLen) :
    step s = .next ((s.latch s.fetchWord).writeCell x.toNat s.acc).advance :=
  (step_of_performs hp).trans (exec_store_of_lt (s := s.latch s.fetchWord) hx)

/-- Settles O36: the latch wrote IR before the store wrote the cell. -/
theorem storeSeenByNextFetch : Obligations.StoreSeenByNextFetch := by
  intro s t x hp hx h
  obtain rfl := Host.Outcome.next.inj ((step_of_performs_store hp hx).symm.trans h)
  have hcell : (s.mem.write x.toNat s.acc).read x.toNat = s.acc := Memory.read_write_self ..
  refine ⟨rfl, fun hip => ?_, fun hip => ?_⟩
  · rw [State.fetchWord, hip]
    exact hcell
  · rw [hip]
    exact hcell

/-! ### The order that the flags read as (R122) -/

/-- The difference of a word and a value of 16 bits, wrapped: it is 0 exactly on equality, and its
sign bit says "less" unless the difference is below the least word and wraps to a positive one. -/
theorem wrapped_difference_order {a d : Word} {v : Nat} (hv : v < 65536)
    (hd : (d.toNat : Int) = (a.toInt - v) % 2 ^ 32) :
    (d = 0 ↔ a.toInt = v) ∧
    (-2 ^ 31 + (v : Int) ≤ a.toInt → (2 ^ 31 ≤ d.toNat ↔ a.toInt < v)) ∧
    (a.toInt < -2 ^ 31 + (v : Int) → d ≠ 0 ∧ ¬ 2 ^ 31 ≤ d.toNat) := by
  have hlo := a.le_toInt
  have hhi := a.toInt_lt
  have hzero : d = 0 ↔ d.toNat = 0 := BitVec.toNat_inj.symm
  rw [Ne, hzero]
  omega

theorem lowHalf_lt (s : State) (x : Half) : s.lowHalf x < 65536 :=
  Nat.mod_lt _ (by decide)

/-- A comparison that does not fault compares with a value of 16 bits and sets the flags from the
wrapped difference. -/
theorem compare_flags_of_exec {v : Nat}
    (h : (exec (.cmpi x) s = .next t ∧ v = x.toNat) ∨
      (exec (.cmp x) s = .next t ∧ x.toNat < s.cfg.memLen ∧ v = s.lowHalf x)) :
    v < 65536 ∧ ∃ d : Word, (d.toNat : Int) = (s.acc.toInt - v) % 2 ^ 32 ∧
      t.zf = decide (d = 0) ∧ t.nf = decide (2 ^ 31 ≤ d.toNat) := by
  obtain ⟨himm, hind, -⟩ := compareSetsFlagsFromDifference x s
  rcases h with ⟨h, rfl⟩ | ⟨h, hx, rfl⟩
  · obtain ⟨d, hd, he⟩ := himm
    obtain rfl := Host.Outcome.next.inj (he.symm.trans h)
    exact ⟨x.isLt, d, hd, rfl, rfl⟩
  · obtain ⟨d, hd, he⟩ := hind hx
    obtain rfl := Host.Outcome.next.inj (he.symm.trans h)
    exact ⟨lowHalf_lt s x, d, hd, rfl, rfl⟩

/-- Settles O45: the flags are the wrapped difference's, which reads as the order outside the
band. -/
theorem compareReadsAsOrderOutsideBand : Obligations.CompareReadsAsOrderOutsideBand := by
  intro x s t v h
  obtain ⟨hv, d, hd, hz, hn⟩ := compare_flags_of_exec h
  simpa only [hz, hn, decide_eq_true_eq, decide_eq_false_iff_not]
    using wrapped_difference_order hv hd

/-! ### A jump to itself (R132) -/

/-- Jumping from a RUNNING state to its own address changes nothing when IR holds the word
there. -/
theorem redirect_latch_self (w : Word) (hrs : s.rs = .running) (hx : x.toNat = s.ip.toNat)
    (hir : s.ir = s.mem.read s.ip.toNat) : (s.latch w).redirect x = s := by
  have hip : x.setWidth 32 = s.ip := BitVec.eq_of_toNat_eq ((zext32_toNat x).trans hx)
  rw [← hx] at hir
  simp only [State.latch, State.redirect, hip, ← hir, ← hrs]

theorem step_of_self_jump (hrs : s.rs = .running) (hp : s.Performs (.jmpi x))
    (hx : x.toNat = s.ip.toNat) (hir : s.ir = s.mem.read s.ip.toNat) : step s = .next s := by
  have ⟨_, hip, _⟩ := hp
  rw [step_of_performs hp, exec_jmpi, jump_of_lt (hx ▸ hip), redirect_latch_self _ hrs hx hir]

theorem run_succ_of_step {M : Host.Core} {s t : M.State} (h : M.step s = .next t) (n : Nat) :
    M.run (n + 1) s = M.run n t := by
  simp [Host.Core.run, h]

theorem run_of_step_eq_self (h : step s = .next s) (n : Nat) : core.run n s = .next s := by
  induction n with
  | zero => rfl
  | succ n ih =>
    exact (run_succ_of_step (M := core) h n).trans ih

/-- Settles O50: one step answers the same state, so any number do. -/
theorem selfJumpRunsForever : Obligations.SelfJumpRunsForever :=
  fun n _ _ hrs hp hx hir => run_of_step_eq_self (step_of_self_jump hrs hp hx hir) n

/-! ### The layout of an image (R62, R162, R212) -/

@[simp] theorem State.loadWord_ip (s : State) (a : Nat) (w : Word) :
    (s.loadWord a w).ip = s.ip := by
  unfold State.loadWord
  split <;> rfl

@[simp] theorem State.loadFrom_ip (s : State) (a : Nat) (image : List Word) :
    (s.loadFrom a image).ip = s.ip := by
  induction image generalizing s a with
  | nil => rfl
  | cons w rest ih => simp [State.loadFrom, ih]

@[simp] theorem State.loadFrom_rs (s : State) (a : Nat) (image : List Word) :
    (s.loadFrom a image).rs = s.rs := by
  induction image generalizing s a with
  | nil => rfl
  | cons w rest ih => simp [State.loadFrom, ih]

/-- Loading an image that fits from address `a` up: cells below `a` and past the end of the image
keep their words, and those between hold the image's. -/
theorem loadFrom_read {a : Nat} {image : List Word} (hrs : s.rs = .ready)
    (hfit : a + image.length ≤ s.cfg.memLen) (b : Nat) :
    (s.loadFrom a image).mem.read b =
      if b < a then s.mem.read b else image.getD (b - a) (s.mem.read b) := by
  induction image generalizing s a with
  | nil => simp [State.loadFrom]
  | cons w rest ih =>
    rw [List.length_cons] at hfit
    have hw : s.loadWord a w = s.writeCell a w := loadWord_of_accepted w hrs (by omega)
    have hfit' : a + 1 + rest.length ≤ (s.writeCell a w).cfg.memLen := by
      rw [State.writeCell_cfg]
      omega
    rw [State.loadFrom, hw, ih (s := s.writeCell a w) hrs hfit', State.writeCell_mem,
      Memory.read_write]
    rcases Nat.lt_trichotomy b a with hlt | rfl | hgt
    · simp [hlt, hlt.ne, Nat.lt_succ_of_lt hlt]
    · simp
    · have hsub : b - a = b - (a + 1) + 1 := by omega
      simp [hsub, hgt.ne', Nat.not_lt.mpr hgt, Nat.not_lt.mpr hgt.le]

/-- Settles O58: reset leaves a READY core of zeros, and the image is loaded from address 0. -/
theorem imageIsLaidOutFromZero : Obligations.ImageIsLaidOutFromZero := by
  intro s image hfits
  have hfit : 0 + image.length ≤ s.resetCore.cfg.memLen :=
    (Nat.zero_add _).trans_le (of_decide_eq_true hfits)
  exact ⟨loadFrom_read rfl hfit, State.loadFrom_ip .., State.loadFrom_rs ..⟩

end Sys2Proof.Machine
